-- ==== Sys2Proof/Word.lean ====
section
/-! DEFINITION. The widths of the values the CORE handles (R9, R20, R21, R25, R71). All of them are unsigned. -/

namespace Sys2Proof

/-- A memory cell or a general register: 8 bits (R20, R21). -/
abbrev Byte := BitVec 8

/-- An instruction word, a return address or the program counter: 16 bits (R25, R28, R70). -/
abbrev Word := BitVec 16

/-- One of the four nibbles of an instruction word (R71). -/
abbrev Nibble := BitVec 4

/-- The 12-bit address field `nnn` (R71). -/
abbrev Addr12 := BitVec 12

end Sys2Proof
end

