-- ==== Sys2Proof/Syntax.lean ====
section
/-! DEFINITION. The instructions (R2, R74): one constructor for each row of spec/opcode_table.json. -/

namespace Sys2Proof

/-- A register index `0x0` to `0xF`: `r` names `V[r]` (R21, R73). -/
abbrev Reg := Fin 16

/-- `FLAG_REG` of R8: VF, the carry/overflow flag, is register 0xF (R22). -/
abbrev Reg.vf : Reg := 15

/-- The four instructions. An operand's type admits exactly the values its field of the encoding holds (R73), so every
term of this type is well-formed. -/
inductive Instr where
  /-- `HALT`, word 0x0000 (R107). -/
  | halt
  /-- `RET`, word 0x00EE (R131). -/
  | ret
  /-- `CALL nnn`, word 0x2nnn (R130). -/
  | call (nnn : Addr12)
  /-- `ADD Vx, Vy`, word 0x8xy4 (R150). -/
  | add (x y : Reg)
deriving DecidableEq, Repr

/-- The mnemonic of the instruction's row of the opcode table (R74). -/
def Instr.mnemonic : Instr → String
  | .halt => "HALT"
  | .ret => "RET"
  | .call _ => "CALL"
  | .add _ _ => "ADD"

end Sys2Proof
end

