-- ==== Sys2Proof/WellFormed.lean ====
section
/-! DEFINITION. What an assembler may be handed (R79), with unbounded numbers for operands, and the checks that make an
instruction or a raw word of it. `Instr` itself needs no check: its operand types admit exactly the encodable values. -/

namespace Sys2Proof

/-- One line of assembly (R79, the spec's own syntax D15) before its operands are checked. -/
inductive AsmTerm where
  | halt
  | ret
  | call (nnn : Nat)
  | add (x y : Nat)
  /-- `.word 0xWWWW`, a raw word. -/
  | word (w : Nat)
deriving DecidableEq, Repr

/-- The checks: an address of at most three hexadecimal digits, a register of one, a raw word of four (R79, R73). -/
def AsmTerm.wellFormed : AsmTerm → Bool
  | .halt => true
  | .ret => true
  | .call nnn => decide (nnn < 4096)
  | .add x y => decide (x < 16) && decide (y < 16)
  | .word w => decide (w < 65536)

/-- The instruction a checked line names; `none` for an ill-formed line and for a raw word, which names no instruction
of its own. -/
def AsmTerm.toInstr : AsmTerm → Option Instr
  | .halt => some .halt
  | .ret => some .ret
  | .call nnn => if nnn < 4096 then some (.call (BitVec.ofNat 12 nnn)) else none
  | .add x y => if h : x < 16 ∧ y < 16 then some (.add ⟨x, h.1⟩ ⟨y, h.2⟩) else none
  | .word _ => none

end Sys2Proof
end

