-- ==== Sys2Proof/Decode.lean ====
section
/-! DEFINITION. The big-endian combiner, the decoder (R103), the dispatch multiplexer's choice (R106), the opcode map as a
table (R74), the encoder, and the assembly forms (R79). -/

namespace Sys2Proof

/-- `concat8` of R10: the first byte is the high-order one (R51). -/
def concat8 (hi lo : Byte) : Word := hi ++ lo

/-- The byte of a word that lies at the lower address (R51, R70). -/
def highByte (w : Word) : Byte := w.extractLsb' 8 8

/-- The byte of a word that lies at the higher address (R51, R70). -/
def lowByte (w : Word) : Byte := w.extractLsb' 0 8

/-- The fields of an instruction word (R71). -/
structure Fields where
  c : Nibble
  x : Nibble
  y : Nibble
  d : Nibble
  nnn : Addr12
deriving DecidableEq, Repr

/-- The decoder (R103): pure and total. -/
def decodeFields (w : Word) : Fields where
  c := w.extractLsb' 12 4
  x := w.extractLsb' 8 4
  y := w.extractLsb' 4 4
  d := w.extractLsb' 0 4
  nnn := w.extractLsb' 0 12

/-- A register field read as an unsigned index (R73). -/
def regOf (n : Nibble) : Reg := ⟨n.toNat, n.isLt⟩

/-- The dispatch multiplexer (R106): which instruction the fields select, if any. -/
def selectInstr (f : Fields) : Option Instr :=
  if f.c = 0x0#4 ∧ f.x = 0x0#4 ∧ f.y = 0x0#4 ∧ f.d = 0x0#4 then some .halt
  else if f.c = 0x0#4 ∧ f.x = 0x0#4 ∧ f.y = 0xE#4 ∧ f.d = 0xE#4 then some .ret
  else if f.c = 0x2#4 then some (.call f.nnn)
  else if f.c = 0x8#4 ∧ f.d = 0x4#4 then some (.add (regOf f.x) (regOf f.y))
  else none

/-- Why a sequence of bytes is no instruction. -/
inductive Reject where
  /-- The word matches none of the four patterns (R76). -/
  | unimplementedOpcode (word : Word)
  /-- Fewer than two bytes were given (R78: every instruction is two bytes). DESIGN CHOICE, safe, log entry 11: no fetch
  hands the decoder such bytes, since R101 checks its bound first. -/
  | truncated
deriving DecidableEq, Repr

/-- What the decoder answers. -/
inductive Decoded where
  | instr (i : Instr)
  | reject (why : Reject)
deriving DecidableEq, Repr

/-- The meaning of one fetched word to dispatch: an instruction, or R108's rejection that carries the word. -/
def decodeWord (w : Word) : Decoded :=
  match selectInstr (decodeFields w) with
  | some i => .instr i
  | none => .reject (.unimplementedOpcode w)

/-- The instruction at the head of any sequence of bytes, high byte first (R70). -/
def decodeBytes : List Byte → Decoded
  | hi :: lo :: _ => decodeWord (concat8 hi lo)
  | _ => .reject .truncated

/-- An accepted instruction, or none. -/
def Decoded.toOption : Decoded → Option Instr
  | .instr i => some i
  | .reject _ => none

/-- One row of the opcode map (R74): `w` selects it when `w &&& mask = pattern`. -/
structure OpcodeRow where
  mnemonic : String
  mask : Word
  pattern : Word
deriving DecidableEq, Repr

/-- The row matches the word (R74). -/
abbrev OpcodeRow.Matches (r : OpcodeRow) (w : Word) : Prop := w &&& r.mask = r.pattern

/-- The row of each instruction, as R74's table gives its mask and match. -/
def Instr.row : Instr → OpcodeRow
  | .halt => ⟨"HALT", 0xFFFF#16, 0x0000#16⟩
  | .ret => ⟨"RET", 0xFFFF#16, 0x00EE#16⟩
  | .call _ => ⟨"CALL", 0xF000#16, 0x2000#16⟩
  | .add _ _ => ⟨"ADD", 0xF00F#16, 0x8004#16⟩

/-- The opcode map (R74), in the order of its table. -/
def opcodeMap : List OpcodeRow :=
  [⟨"HALT", 0xFFFF#16, 0x0000#16⟩, ⟨"RET", 0xFFFF#16, 0x00EE#16⟩, ⟨"CALL", 0xF000#16, 0x2000#16⟩, ⟨"ADD", 0xF00F#16, 0x8004#16⟩]

/-- The word of an instruction, from the formats FIXED, ADDR and REG2 of R72. -/
def encode : Instr → Word
  | .halt => 0x0000#16
  | .ret => 0x00EE#16
  | .call nnn => 0x2#4 ++ nnn
  | .add x y => 0x8#4 ++ BitVec.ofNat 4 x.val ++ BitVec.ofNat 4 y.val ++ 0x4#4

/-- The two bytes of an instruction as memory holds them, high byte at the lower address (R70). -/
def encodeBytes (i : Instr) : List Byte := [highByte (encode i), lowByte (encode i)]

/-- The word a checked line of assembly stands for (R79); `none` for an ill-formed one. -/
def AsmTerm.assemble (t : AsmTerm) : Option Word :=
  match t with
  | .word w => if w < 65536 then some (BitVec.ofNat 16 w) else none
  | .halt => t.toInstr.map encode
  | .ret => t.toInstr.map encode
  | .call _ => t.toInstr.map encode
  | .add _ _ => t.toInstr.map encode

/-- One upper-case hexadecimal digit (R79). -/
def hexDigit (n : Nibble) : Char :=
  if n.toNat < 10 then Char.ofNat ('0'.toNat + n.toNat) else Char.ofNat ('A'.toNat + n.toNat - 10)

/-- The assembly text of an instruction (R79, the spec's own syntax D15). -/
def Instr.asm : Instr → String
  | .halt => "HALT"
  | .ret => "RET"
  | .call nnn =>
    "CALL 0x" ++ String.ofList [hexDigit (nnn.extractLsb' 8 4), hexDigit (nnn.extractLsb' 4 4), hexDigit (nnn.extractLsb' 0 4)]
  | .add x y =>
    "ADD V" ++ String.ofList [hexDigit (BitVec.ofNat 4 x.val)] ++ ", V" ++ String.ofList [hexDigit (BitVec.ofNat 4 y.val)]

/-- The two bytes of an opcode-table word, high byte first, for a row given `nbits` bits; bits above are 0. -/
def tableBytes (nbits w : Nat) : List Byte :=
  [highByte (BitVec.ofNat 16 (w % 2 ^ nbits)), lowByte (BitVec.ofNat 16 (w % 2 ^ nbits))]

/-- The instruction the decoder reads from an instruction of the opcode table whose bits are `w`. -/
def decodeTableWord (nbits w : Nat) : Option Instr :=
  (decodeBytes (tableBytes nbits w)).toOption

end Sys2Proof
end

