-- ==== Sys2Proof/Config.lean ====
section
/-! DEFINITION. The implementation parameters of R8 at the values R8 gives them, and the one parameter the spec leaves
OPEN (R240, 92_eei_decisions.md D10). The literals are the spec's, unaudited against the built CORE (D17): UNVERIFIED, log
entry 14. -/

namespace Sys2Proof

/-- `MEM_SIZE` of R8: addresses 0x000 to 0xFFF. -/
abbrev Config.memSize : Nat := 4096

/-- `STACK_DEPTH` of R8. -/
abbrev Config.stackDepth : Nat := 16

/-- `INSN_WIDTH` and `PC_STEP` of R8, in bytes: every instruction is two bytes long. -/
abbrev Config.insnBytes : Nat := 2

/-- `ENTRY_PC` of R8: a run starts at address 0x000. -/
abbrev Config.entryPc : Word := 0x000#16

/-- What an address the caller has written nothing to reads as (R38). -/
abbrev Config.unwrittenByte : Byte := 0x00#8

/-- `STEP_CYCLES`, the OPEN duration of a step (R240, D10): no value, and nothing in the model reads it. -/
opaque Config.stepCycles : Nat

end Sys2Proof
end

