-- ==== Sys2Proof/Machine/State.lean ====
section
/-! DEFINITION. Everything the spec gives the machine (R20 to R32), the fault kinds (R201), what the model refuses, and the
state at construction (R38). -/

namespace Sys2Proof.Machine

/-- Memory: a list of (address, byte) pairs in one canonical form (`Memory.wf`). An unlisted address reads 0x00, which is
what construction leaves there (R38). -/
abbrev Memory := List Host.Cell

/-- The four fault kinds (R201) with the info each records (R202). Each is a stop the spec itself describes (safe).
A handler, dispatch or the fetch unit puts the machine into `Status.faulted` with one of these; a step asked of a
machine in that status reports it as the step's outcome (log entry 1). -/
inductive Fault where
  /-- Raised by CALL when the call stack is full (R130, R134). Safe: the spec's own stop. -/
  | stackOverflow (addr word : Word)
  /-- Raised by RET when the call stack is empty (R131). Safe: the spec's own stop. -/
  | stackUnderflow (addr word : Word)
  /-- Raised by dispatch for a word that matches none of the four patterns (R108). Safe: the spec's own stop. -/
  | unimplementedOpcode (addr word : Word)
  /-- Raised by the fetch unit when `pc + 1` is no address of memory (R101). Safe: the spec's own stop. -/
  | outOfBoundsFetch (addr : Word)
deriving DecidableEq, Repr

/-- What is not an operation of the CORE, so that the model gives it no meaning. -/
inductive Refusal where
  /-- An instruction without a meaning; no arm of `exec` answers this. Safe. -/
  | notModelled (mnemonic : String)
  /-- Answered to a caller's load, preset or start when the status is not Idle (R33, R34, R35). Safe. -/
  | notIdle
  /-- Answered to a caller's load outside 0x000 to 0xFFF (R33, D14). Safe. -/
  | loadOutsideMemory (addr : Nat)
  /-- Answered to a caller's inspection before the run has ended (R36, R37). Safe. -/
  | runNotEnded
  /-- Answered by `step` after a halt: no step follows one (R31, R107). Safe. -/
  | runHalted
deriving DecidableEq, Repr

/-- The run status (R31). -/
inductive Status where
  /-- Constructed, not yet started. -/
  | idle
  | running
  /-- Ended by HALT; final. -/
  | halted
  /-- Ended by a fault; final. -/
  | faulted (f : Fault)
deriving DecidableEq, Repr

/-- The state of the CORE (R32: there is no other). -/
structure State where
  /-- `Mem` (R20). -/
  mem : Memory
  /-- `V[0]` to `V[15]`; index 15 is VF, the flag (R21, R22). -/
  v : Vector Byte 16
  /-- `Stack[0]` to `Stack[15]`, a separate array (R28); slots from `sp` on are free and stale (R30). -/
  stack : Vector Word 16
  /-- `SP`, 0 to 16 inclusive, the next free slot (R29). -/
  sp : Fin 17
  /-- The program counter, the byte address of the next instruction to fetch (R25). -/
  pc : Word
  /-- `Status` (R31). -/
  status : Status
deriving DecidableEq, Repr

/-- Construction, the CORE's reset (R38, R230): everything zero, status Idle. -/
def State.reset : State where
  mem := []
  v := Vector.replicate 16 0x00#8
  stack := Vector.replicate 16 0x0000#16
  sp := 0
  pc := Config.entryPc
  status := .idle

end Sys2Proof.Machine
end

