-- ==== Sys2Proof/Machine/Ops.lean ====
section
/-! DEFINITION. The named operations over memory, registers, stack, program counter and status; raising a fault is one of
them. There is no return from a fault to write beside it: R205 gives the CORE none. -/

namespace Sys2Proof.Machine

/-- The canonical form: addresses strictly rising and inside memory, and no listed byte equal to what an unlisted address
reads as. -/
abbrev Memory.wf (m : Memory) : Prop :=
  m.Pairwise (fun a b => a.1 < b.1) ∧ ∀ c ∈ m, c.1 < Config.memSize ∧ c.2 ≠ Config.unwrittenByte

/-- `Mem[a]` (R11). -/
def Memory.read : Memory → Nat → Byte
  | [], _ => Config.unwrittenByte
  | (b, u) :: m, a => if a = b then u else Memory.read m a

/-- `Mem[a] <- u`, keeping the canonical form. -/
def Memory.write : Memory → Nat → Byte → Memory
  | [], a, u => if u = Config.unwrittenByte then [] else [(a, u)]
  | (b, t) :: m, a, u =>
    if a < b then (if u = Config.unwrittenByte then (b, t) :: m else (a, u) :: (b, t) :: m)
    else if a = b then (if u = Config.unwrittenByte then m else (a, u) :: m)
    else (b, t) :: Memory.write m a u

/-- `MemRead(a, 1)` of R12. -/
def State.readMem (s : State) (a : Nat) : Byte := s.mem.read a

/-- `MemWrite(a, 1, u)` of R12; only the caller's load performs it. -/
def State.writeMem (s : State) (a : Nat) (u : Byte) : State := { s with mem := s.mem.write a u }

/-- `V[r]` (R11). No register is hardwired (R21). -/
def State.readReg (s : State) (r : Reg) : Byte := s.v[r]

/-- `V[r] <- u` (R11). -/
def State.writeReg (s : State) (r : Reg) (u : Byte) : State := { s with v := s.v.set r.val u r.isLt }

/-- `Stack[i]` (R11). -/
def State.readStack (s : State) (i : Fin 16) : Word := s.stack[i]

/-- `pc <- t` (R11). -/
def State.jump (s : State) (t : Word) : State := { s with pc := t }

/-- The run loop's advance (R105). After a successful fetch `pc <= 0xFFE`, so it does not wrap. -/
def State.advancePc (s : State) : State := { s with pc := s.pc + BitVec.ofNat 16 Config.insnBytes }

/-- The address `a` of the instruction whose handler is running. DEDUCED from R26 and R105, log entry 4: while a handler
runs, `pc` is `a + 2`. -/
def State.handlerAddr (s : State) : Word := s.pc - BitVec.ofNat 16 Config.insnBytes

/-- CALL's push (R130, R134): `none` when `SP >= STACK_DEPTH`, and then nothing is written. -/
def State.push (s : State) (ra : Word) : Option State :=
  if h : s.sp.val < Config.stackDepth then
    some { s with stack := s.stack.set s.sp.val ra h, sp := ⟨s.sp.val + 1, Nat.succ_lt_succ h⟩ }
  else none

/-- RET's pop (R131): `none` when `SP == 0`. The slot keeps its value (R30). -/
def State.pop (s : State) : Option (Word × State) :=
  if h : s.sp.val = 0 then none
  else some (s.stack[s.sp.val - 1]'(by have := s.sp.isLt; omega),
    { s with sp := ⟨s.sp.val - 1, by have := s.sp.isLt; omega⟩ })

/-- `halt` of R12: the normal end of a run. -/
def State.halt (s : State) : State := { s with status := .halted }

/-- `raise Fault(kind, info)` of R12 and R200: the run ends, and nothing else is written. -/
def State.raise (s : State) (f : Fault) : State := { s with status := .faulted f }

/-- `Status <- Running` (R35). -/
def State.enterRun (s : State) : State := { s with status := .running }

/-- The spec's own code of a fault kind (R201, D6). -/
def Fault.code : Fault → Nat
  | .stackOverflow _ _ => 1
  | .stackUnderflow _ _ => 2
  | .unimplementedOpcode _ _ => 3
  | .outOfBoundsFetch _ => 4

/-- The address a fault records (R202). -/
def Fault.addr : Fault → Word
  | .stackOverflow a _ => a
  | .stackUnderflow a _ => a
  | .unimplementedOpcode a _ => a
  | .outOfBoundsFetch a => a

/-- The word a fault records: the three kinds raised after a successful fetch (R202). -/
def Fault.word : Fault → Option Word
  | .stackOverflow _ w => some w
  | .stackUnderflow _ w => some w
  | .unimplementedOpcode _ w => some w
  | .outOfBoundsFetch _ => none

end Sys2Proof.Machine
end

