-- ==== Sys2Proof/Machine/Flags.lean ====
section
/-! DEFINITION. The one flag computation (R24, R150): VF is set by the unsigned carry out of bit 7. -/

namespace Sys2Proof.Machine

/-- What ADD writes into VF for the exact sum of its operands: 1 if it is 256 or more, else 0 (R150). -/
def carryFlag (sum : Nat) : Byte := if 256 ≤ sum then 1#8 else 0#8

end Sys2Proof.Machine
end

