-- ==== Sys2Proof/Machine/Operands.lean ====
section
/-! DEFINITION. The operand forms (R73): two register indices and one address. There is no immediate data operand. -/

namespace Sys2Proof.Machine

/-- A register operand's value: `V[r]` as an unsigned number (R9, R73). -/
def State.regOperand (s : State) (r : Reg) : Nat := (s.readReg r).toNat

/-- CALL's target: `zext_16(nnn)`, unscaled (R73). -/
def callTarget (nnn : Addr12) : Word := nnn.setWidth 16

end Sys2Proof.Machine
end

