-- ==== Sys2Proof/Machine/Arithmetic.lean ====
section
/-! DEFINITION. ADD (R150). -/

namespace Sys2Proof.Machine

/-- ADD Vx, Vy (R150): both operands are read first, then the sum is written, then the flag, which wins when `x` is VF. -/
def execAdd (x y : Reg) (s : State) : Host.Outcome State Fault Refusal :=
  let sum := s.regOperand x + s.regOperand y
  .next ((s.writeReg x (BitVec.ofNat 8 sum)).writeReg Reg.vf (carryFlag sum))

end Sys2Proof.Machine
end

