-- ==== Sys2Proof/Machine/CallReturn.lean ====
section
/-! DEFINITION. CALL and RET (R130, R131). Each checks its fault condition before it writes anything. On entry `pc` is the
address after the instruction (R26). -/

namespace Sys2Proof.Machine

/-- CALL nnn (R130): push the return address and jump, or StackOverflow when the stack is full. -/
def execCall (nnn : Addr12) (s : State) : Host.Outcome State Fault Refusal :=
  match s.push s.pc with
  | some t => .next (t.jump (callTarget nnn))
  | none => .next (s.raise (.stackOverflow s.handlerAddr (encode (.call nnn))))

/-- RET (R131): pop the return address into `pc`, or StackUnderflow when the stack is empty. -/
def execRet (s : State) : Host.Outcome State Fault Refusal :=
  match s.pop with
  | some (ra, t) => .next (t.jump ra)
  | none => .next (s.raise (.stackUnderflow s.handlerAddr (encode .ret)))

end Sys2Proof.Machine
end

