-- ==== Sys2Proof/Machine/System.lean ====
section
/-! DEFINITION. HALT (R107). -/

namespace Sys2Proof.Machine

/-- HALT (R107): `Status <- Halted`; `pc` keeps the advanced value. -/
def execHalt (s : State) : Host.Outcome State Fault Refusal := .next s.halt

end Sys2Proof.Machine
end

