-- ==== Sys2Proof/Machine/RunLoop.lean ====
section
/-! DEFINITION. The fetch unit (R100 to R102), one step of the run loop (R104), what a step does in each run status, and the
placing of a word where the next fetch finds it. -/

namespace Sys2Proof.Machine

/-- The fetch unit: R101's bound check, with `pc + 1` an integer, then R100's big-endian combination. `none` when the
check fails. An odd `pc` is fetched like an even one (R27). -/
def State.fetch (s : State) : Option Word :=
  if s.pc.toNat + 1 < Config.memSize then
    some (concat8 (s.readMem s.pc.toNat) (s.readMem (s.pc.toNat + 1)))
  else none

/-- One step of a run (R104): fetch, advance, decode, dispatch, execute. -/
def runStep (s : State) : Host.Outcome State Fault Refusal :=
  match s.fetch with
  | none => .next (s.raise (.outOfBoundsFetch s.pc))
  | some w =>
    match decodeWord w with
    | .instr i => exec i s.advancePc
    | .reject _ => .next (s.advancePc.raise (.unimplementedOpcode s.pc w))

/-- A step asked of the machine in any status. Running: R104's step. Idle: the caller's Start (R35) and the first step it
begins, DESIGN CHOICE, log entry 2. Halted: refused, DEDUCED, log entry 3. Faulted: the fault is the outcome, DESIGN
CHOICE, log entry 1. -/
def stepInStatus (s : State) : Host.Outcome State Fault Refusal :=
  match s.status with
  | .idle => runStep s.enterRun
  | .running => runStep s
  | .halted => .refused .runHalted
  | .faulted f => .fault f

/-- Where a word can be placed for the next fetch: `pc` itself where the bound check allows it, else the entry point. -/
def State.fetchPlace (s : State) : Word :=
  if s.pc.toNat + 1 < Config.memSize then s.pc else Config.entryPc

/-- The machine with the word `w` placed big-endian where the next step fetches, and running. -/
def State.placeWord (s : State) (w : Word) : State :=
  let a := s.fetchPlace
  (((s.jump a).writeMem a.toNat (highByte w)).writeMem (a.toNat + 1) (lowByte w)).enterRun

end Sys2Proof.Machine
end

