-- ==== Sys2Proof/Machine/Step.lean ====
section
/-! DEFINITION. One step of the machine, and the host's way of giving it an instruction to fetch. -/

namespace Sys2Proof.Machine

/-- One step: `stepInStatus` says what it does. -/
def step (s : State) : Host.Outcome State Fault Refusal := stepInStatus s

/-- `s` with the opcode-table word `w` (its bits above `nbits` zero) where the next step fetches, and the run started; this
stands for the caller's load and start (R33, R35; log entry 5). -/
def State.withFetchWord (s : State) (nbits w : Nat) : State :=
  s.placeWord (BitVec.ofNat 16 (w % 2 ^ nbits))

end Sys2Proof.Machine
end

