-- ==== Sys2Proof/Machine/Caller.lean ====
section
/-! DEFINITION. The caller's operations (R33 to R36) and the boot sequence made of them (R231). None of them is an
instruction: the caller acts only before a run starts and after it has ended (R37). -/

namespace Sys2Proof.Machine

/-- Performs `f` after an operation that answered a next state; a stop is passed on. -/
def andThen (o : Host.Outcome State Fault Refusal) (f : State → Host.Outcome State Fault Refusal) :
    Host.Outcome State Fault Refusal :=
  match o with
  | .next s => f s
  | .fault r => .fault r
  | .refused r => .refused r

/-- An operation the caller may perform only while `Status == Idle`. -/
def whileIdle (s : State) (o : Host.Outcome State Fault Refusal) : Host.Outcome State Fault Refusal :=
  match s.status with
  | .idle => o
  | .running => .refused .notIdle
  | .halted => .refused .notIdle
  | .faulted _ => .refused .notIdle

/-- Load (R33): one byte to one address of memory; an address outside memory is refused (D14). -/
def load (a : Nat) (u : Byte) (s : State) : Host.Outcome State Fault Refusal :=
  whileIdle s (if a < Config.memSize then .next (s.writeMem a u) else .refused (.loadOutsideMemory a))

/-- The caller's sequence of (address, byte) writes (R33). -/
def loadAll : List (Nat × Byte) → State → Host.Outcome State Fault Refusal
  | [], s => .next s
  | (a, u) :: rest, s => andThen (load a u s) (loadAll rest)

/-- Preset (R34): any value into any register, VF included. -/
def preset (r : Reg) (u : Byte) (s : State) : Host.Outcome State Fault Refusal :=
  whileIdle s (.next (s.writeReg r u))

/-- A sequence of presets (R34, R231). -/
def presetAll : List (Reg × Byte) → State → Host.Outcome State Fault Refusal
  | [], s => .next s
  | (r, u) :: rest, s => andThen (preset r u s) (presetAll rest)

/-- Start (R35): once, from Idle. -/
def start (s : State) : Host.Outcome State Fault Refusal := whileIdle s (.next s.enterRun)

/-- Boot (R231): construct, load and preset, start. -/
def boot (image : List (Nat × Byte)) (presets : List (Reg × Byte)) : Host.Outcome State Fault Refusal :=
  andThen (loadAll image State.reset) fun s => andThen (presetAll presets s) start

/-- Inspect (R36): after a halt the caller reads what it likes; after a fault it reads the kind and its info; before the
run has ended it reads nothing (R37). -/
def inspect {α : Type} (look : State → α) (s : State) : Host.Outcome α Fault Refusal :=
  match s.status with
  | .idle => .refused .runNotEnded
  | .running => .refused .runNotEnded
  | .halted => .next (look s)
  | .faulted f => .fault f

/-- The caller reads one register (R36). -/
def inspectReg (r : Reg) (s : State) : Host.Outcome Byte Fault Refusal := inspect (·.readReg r) s

/-- The caller reads one byte of memory (R36); the index type is the address space. -/
def inspectMem (a : Addr12) (s : State) : Host.Outcome Byte Fault Refusal := inspect (·.readMem a.toNat) s

/-- The caller reads one stack entry, a free slot's stale value included (R30, R36). -/
def inspectStack (i : Fin 16) (s : State) : Host.Outcome Word Fault Refusal := inspect (·.readStack i) s

/-- The caller reads the stack pointer (R36). -/
def inspectSp (s : State) : Host.Outcome (Fin 17) Fault Refusal := inspect (·.sp) s

/-- The caller reads the program counter (R36). -/
def inspectPc (s : State) : Host.Outcome Word Fault Refusal := inspect (·.pc) s

end Sys2Proof.Machine
end

