-- ==== Sys2Proof/Safety.lean ====
section
/-! DEFINITION. The terms claims use: the invariant of every state a run reaches, how a run ends (R233), and sequences of
handlers. -/

namespace Sys2Proof.Machine

/-- A return address CALL can have pushed: 0x002 to 0x1000 (R130, R131). -/
abbrev returnAddress (w : Word) : Prop := 0x002 ≤ w.toNat ∧ w.toNat ≤ 0x1000

/-- What holds in every state a run reaches: memory in its canonical form, `pc` at most 0x1000 (R25), and every live stack
slot a return address (R130, R131). `SP <= 16` (R29, R39) is in the type of `sp`. -/
structure State.Inv (s : State) : Prop where
  memWf : s.mem.wf
  pcBound : s.pc.toNat ≤ 0x1000
  liveSlots : ∀ i : Fin 16, i.val < s.sp.val → returnAddress (s.readStack i)

/-- Every byte of memory reads alike. -/
def SameMemory (s t : State) : Prop := ∀ a : Nat, t.readMem a = s.readMem a

/-- Every general register, VF among them, reads alike. -/
def SameRegs (s t : State) : Prop := ∀ r : Reg, t.readReg r = s.readReg r

/-- Every stack entry, free slots among them, reads alike. -/
def SameStack (s t : State) : Prop := ∀ i : Fin 16, t.readStack i = s.readStack i

/-- What the decoder makes of the two bytes a fetch at `pc` reads (R100). -/
def State.decodedAtPc (s : State) : Decoded := decodeBytes [s.readMem s.pc.toNat, s.readMem (s.pc.toNat + 1)]

/-- The fetch bound check of R101 passes. -/
abbrev State.canFetch (s : State) : Prop := s.pc.toNat + 1 < 4096

/-- The run has ended (R233): `Status` is Halted or Faulted. -/
def State.Ended (s : State) : Prop := s.status = .halted ∨ ∃ f, s.status = .faulted f

/-- The run from `s` ends normally in `t`: the only end a claim about a program's result is about (R233). -/
def HaltsIn (s t : State) : Prop := ∃ k, Sys2Proof.core.run k s = .next t ∧ t.status = .halted

/-- The run from `s` ends, by a halt or by a fault (R233). -/
def RunEnds (s : State) : Prop := ∃ (k : Nat) (t : State), Sys2Proof.core.run k s = .next t ∧ t.Ended

/-- The handlers of a list of instructions one after another, each entered with `pc` advanced as the run loop does (R105),
stopping at the first one that ends the run. -/
def execEach : List Instr → State → Host.Outcome State Fault Refusal
  | [], s => .next s
  | i :: rest, s =>
    match s.status with
    | .halted => .next s
    | .faulted _ => .next s
    | .idle => andThen (exec i s.advancePc) (execEach rest)
    | .running => andThen (exec i s.advancePc) (execEach rest)

/-- The same state but for the general registers. -/
def State.SameButRegs (s t : State) : Prop :=
  s.mem = t.mem ∧ s.stack = t.stack ∧ s.sp = t.sp ∧ s.pc = t.pc ∧ s.status = t.status

/-- The same state but for the free stack slots (R30). -/
def State.SameButFreeSlots (s t : State) : Prop :=
  s.mem = t.mem ∧ s.v = t.v ∧ s.sp = t.sp ∧ s.pc = t.pc ∧ s.status = t.status ∧
    ∀ i : Fin 16, i.val < s.sp.val → s.readStack i = t.readStack i

/-- Two outcomes of a step: states that agree by `R`, or the same fault, or the same refusal. -/
def OutcomeRel (R : State → State → Prop) : Host.Outcome State Fault Refusal → Host.Outcome State Fault Refusal → Prop
  | .next s, .next t => R s t
  | .fault r, .fault q => r = q
  | .refused r, .refused q => r = q
  | .next _, .fault _ => False
  | .next _, .refused _ => False
  | .fault _, .next _ => False
  | .fault _, .refused _ => False
  | .refused _, .next _ => False
  | .refused _, .fault _ => False

end Sys2Proof.Machine
end

