-- ==== Sys2Proof/Certificates/Slice0/Obligations.lean ====
section
/-! DEFINITION. The statements for the provers. Each docstring names the rule or section of spec/ it formalises. No
statement is about a program. Three give the value of a faulted state's `pc`, which is the spec's own choice D7 (log entry 8):
FetchPastTheEndFaults, OverflowExactlyWhenFull and FaultingStepWritesNothing. -/

open Sys2Proof Sys2Proof.Machine

/-! ### Encoding and decoding -/

/-- R103, R71: the decoder's fields are the bits `w[15:12]`, `w[11:8]`, `w[7:4]`, `w[3:0]` and `w[11:0]`, and `nnn` is
`x`, `y` and `d` put together. -/
def Obligations.DecoderExtractsTheFields : Prop :=
  ∀ w : Word,
    (decodeFields w).c.toNat = w.toNat / 2 ^ 12 ∧
    (decodeFields w).x.toNat = w.toNat / 2 ^ 8 % 16 ∧
    (decodeFields w).y.toNat = w.toNat / 2 ^ 4 % 16 ∧
    (decodeFields w).d.toNat = w.toNat % 16 ∧
    (decodeFields w).nnn.toNat = w.toNat % 4096 ∧
    (decodeFields w).nnn.toNat =
      (decodeFields w).x.toNat * 256 + (decodeFields w).y.toNat * 16 + (decodeFields w).d.toNat

/-- Words written out from R72 and R74, one or more of each family, and near misses of R108 and vectors DI3 to DI14. -/
def Obligations.WordsOfTheSpecDecode : Prop :=
  decodeBytes [0x00#8, 0x00#8] = .instr .halt ∧
  decodeBytes [0x00#8, 0xEE#8] = .instr .ret ∧
  decodeBytes [0x2A#8, 0xBC#8] = .instr (.call 0xABC#12) ∧
  decodeBytes [0x2F#8, 0xFF#8] = .instr (.call 0xFFF#12) ∧
  decodeBytes [0x8A#8, 0xB4#8] = .instr (.add 0xA 0xB) ∧
  decodeBytes [0x8F#8, 0xF4#8] = .instr (.add 0xF 0xF) ∧
  decodeBytes [0x00#8, 0xEF#8] = .reject (.unimplementedOpcode 0x00EF#16) ∧
  decodeBytes [0x01#8, 0xEE#8] = .reject (.unimplementedOpcode 0x01EE#16) ∧
  decodeBytes [0x80#8, 0x05#8] = .reject (.unimplementedOpcode 0x8005#16) ∧
  decodeBytes [0x12#8, 0x00#8] = .reject (.unimplementedOpcode 0x1200#16)

/-- For every instruction, with every operand at every value its field admits, and whatever bytes follow: the decoder
reads its own bytes back as that instruction (30_encoding.md sections 1 to 4). -/
def Obligations.EncodedInstructionsDecodeBack : Prop :=
  ∀ (i : Instr) (rest : List Byte), decodeBytes (encodeBytes i ++ rest) = .instr i

/-- Two bytes that decode to an instruction are that instruction's own bytes: no word has two spellings, and the word a
handler's fault records, `encode i`, is the word that was fetched (R202, log entry 4). -/
def Obligations.DecodedBytesAreTheEncoding : Prop :=
  ∀ (hi lo : Byte) (rest : List Byte) (i : Instr),
    decodeBytes (hi :: lo :: rest) = .instr i → encodeBytes i = [hi, lo] ∧ encode i = concat8 hi lo

/-- R75: no word matches two rows of the opcode map. -/
def Obligations.PatternsAreMutuallyExclusive : Prop :=
  ∀ (w : Word) (r q : OpcodeRow), r ∈ opcodeMap → q ∈ opcodeMap → r.Matches w → q.Matches w → r = q

/-- R74: the dispatch multiplexer accepts a word exactly when a row of the opcode map matches it, and then selects the
instruction of that row. -/
def Obligations.DispatchFollowsTheOpcodeMap : Prop :=
  ∀ w : Word,
    (∀ i, decodeWord w = .instr i → i.row ∈ opcodeMap ∧ i.row.Matches w ∧ i.row.mnemonic = i.mnemonic) ∧
    (∀ r ∈ opcodeMap, r.Matches w → ∃ i, decodeWord w = .instr i ∧ i.row = r)

/-- 30_encoding.md section 5: which words fault, class by class (the counts R76 derives from this are left out). -/
def Obligations.ImplementedWordsByClass : Prop :=
  ∀ w : Word,
    (w.toNat / 4096 = 0x0 → ((∃ i, decodeWord w = .instr i) ↔ w = 0x0000#16 ∨ w = 0x00EE#16)) ∧
    (w.toNat / 4096 = 0x2 → ∃ nnn : Addr12, decodeWord w = .instr (.call nnn) ∧ nnn.toNat = w.toNat % 4096) ∧
    (w.toNat / 4096 = 0x8 → ((∃ i, decodeWord w = .instr i) ↔ w.toNat % 16 = 0x4)) ∧
    (w.toNat / 4096 ≠ 0x0 → w.toNat / 4096 ≠ 0x2 → w.toNat / 4096 ≠ 0x8 →
      decodeWord w = .reject (.unimplementedOpcode w))

/-! ### Fetch and the run loop -/

/-- R100: at any `pc` that passes the bound check, odd or even, the fetch unit reads `Mem[pc]` as the high-order byte and
`Mem[pc+1]` as the low-order one. -/
def Obligations.FetchCombinesBigEndian : Prop :=
  ∀ s : State, s.pc.toNat + 1 < 4096 →
    ∃ w : Word, s.fetch = some w ∧
      w.toNat = (s.readMem s.pc.toNat).toNat * 256 + (s.readMem (s.pc.toNat + 1)).toNat

/-- A step whose `pc` fails the bound check faults with OutOfBoundsFetch at that address and writes nothing but the status:
no register, byte, stack entry or `SP`, and `pc` is not advanced (40_fetch_decode_dispatch.md section 1; that `pc + 1` does
not wrap is the spec's own choice D16, and the `pc` of a faulted state is its own choice D7, log entry 8). -/
def Obligations.FetchPastTheEndFaults : Prop :=
  ∀ s : State, s.status = .running → 4096 ≤ s.pc.toNat + 1 →
    ∃ t, step s = .next t ∧ t.status = .faulted (.outOfBoundsFetch s.pc) ∧
      SameRegs s t ∧ SameMemory s t ∧ SameStack s t ∧ t.sp = s.sp ∧ t.pc = s.pc

/-- When the two bytes at `pc` decode to `i`, a step is `i`'s handler on the state whose `pc`, and nothing else, has been
advanced by 2 without wrapping (40_fetch_decode_dispatch.md section 3). -/
def Obligations.StepRunsTheDecodedInstruction : Prop :=
  ∀ (s : State) (i : Instr), s.status = .running → s.canFetch → s.decodedAtPc = .instr i →
    step s = exec i { s with pc := s.pc + 2#16 } ∧ (s.pc + 2#16).toNat = s.pc.toNat + 2

/-- A fetched word that is no instruction faults with UnimplementedOpcode carrying the literal word and its address; no
register, byte, stack entry or `SP` is written (40_fetch_decode_dispatch.md section 6). -/
def Obligations.UnimplementedWordFaults : Prop :=
  ∀ (s : State) (w : Word), s.status = .running → s.canFetch → s.decodedAtPc = .reject (.unimplementedOpcode w) →
    w.toNat = (s.readMem s.pc.toNat).toNat * 256 + (s.readMem (s.pc.toNat + 1)).toNat ∧
    ∃ t, step s = .next t ∧ t.status = .faulted (.unimplementedOpcode s.pc w) ∧
      SameRegs s t ∧ SameMemory s t ∧ SameStack s t ∧ t.sp = s.sp

/-- The model's choice, log entry 2: a step asked of an Idle machine is the caller's Start and the first step of the run
it begins. -/
def Obligations.StepOfIdleStartsTheRun : Prop :=
  ∀ s : State, s.status = .idle →
    ∃ t, start s = .next t ∧ t.status = .running ∧ step s = step t ∧ ∃ u, step s = .next u

/-- No step follows a halt or a fault (10_state.md section 6, the spec's own choice D8); a faulted machine reports its
fault (log entries 1 and 3). -/
def Obligations.EndedRunTakesNoStep : Prop :=
  ∀ s : State,
    (s.status = .halted → step s = .refused .runHalted) ∧
    (∀ f, s.status = .faulted f → step s = .fault f)

/-! ### The four instructions -/

/-- R151: the value ADD writes to `V[x]` is the sum of the two operands modulo 256. (With `x = 0xF` the flag is written
after it: AddSetsTheCarryFlag.) -/
def Obligations.AddIsModulo256 : Prop :=
  ∀ (s : State) (x y : Reg), x ≠ Reg.vf →
    ∃ t, exec (.add x y) s = .next t ∧
      (t.readReg x).toNat = ((s.readReg x).toNat + (s.readReg y).toNat) % 256

/-- R152: for every pair of registers, VF among them, ADD leaves VF at 1 if the sum of the values before the instruction
is 256 or more and at 0 otherwise, which is bit 8 of the sum. -/
def Obligations.AddSetsTheCarryFlag : Prop :=
  ∀ (s : State) (x y : Reg),
    ∃ t, exec (.add x y) s = .next t ∧
      (t.readReg Reg.vf = 1#8 ↔ 256 ≤ (s.readReg x).toNat + (s.readReg y).toNat) ∧
      (t.readReg Reg.vf = 0#8 ↔ (s.readReg x).toNat + (s.readReg y).toNat < 256) ∧
      (t.readReg Reg.vf).toNat = ((s.readReg x).toNat + (s.readReg y).toNat) / 2 ^ 8 % 2

/-- ADD's frame (42_arithmetic.md section 2): every register but `V[x]` and VF, every byte of memory, the stack, `SP`,
`pc` and the status keep their values; with `x = 0xF` only VF can change. -/
def Obligations.AddFrame : Prop :=
  ∀ (s : State) (x y : Reg),
    ∃ t, exec (.add x y) s = .next t ∧
      (∀ r : Reg, r ≠ x → r ≠ Reg.vf → t.readReg r = s.readReg r) ∧
      SameMemory s t ∧ SameStack s t ∧ t.sp = s.sp ∧ t.pc = s.pc ∧ t.status = s.status

/-- R130: CALL at `a`, entered with `pc = a + 2`. With a free slot it pushes `a + 2`, increments `SP` and jumps to the
zero-extended address; with the stack full it faults with StackOverflow, carrying `a` and its word, and writes no stack
entry, `SP` or register. -/
def Obligations.CallPushesAndJumps : Prop :=
  ∀ (s : State) (nnn : Addr12) (a : Word), s.pc = a + 2#16 →
    (s.sp.val < 16 →
      ∃ t, exec (.call nnn) s = .next t ∧
        (∀ i : Fin 16, t.readStack i = if i.val = s.sp.val then a + 2#16 else s.readStack i) ∧
        t.sp.val = s.sp.val + 1 ∧ t.pc.toNat = nnn.toNat ∧
        SameRegs s t ∧ SameMemory s t ∧ t.status = s.status) ∧
    (16 ≤ s.sp.val →
      ∃ (t : State) (w : Word), exec (.call nnn) s = .next t ∧
        t.status = .faulted (.stackOverflow a w) ∧ w.toNat = 0x2000 + nnn.toNat ∧
        SameStack s t ∧ t.sp = s.sp ∧ SameRegs s t ∧ SameMemory s t)

/-- The overflow test is `SP >= 16`, made before the write (41_call_return.md sections 1 and 3, 60_exceptions.md section
1): a CALL ends in StackOverflow exactly then, its handler having written no stack entry, `SP`, register, byte of memory or
`pc`, and no CALL ends the run otherwise. (The `pc` clause leaves the run loop's advance standing, which is the spec's own
choice D7, log entry 8.) -/
def Obligations.OverflowExactlyWhenFull : Prop :=
  ∀ (s : State) (nnn : Addr12), s.status = .running →
    ∃ t, exec (.call nnn) s = .next t ∧
      ((∃ a w, t.status = .faulted (.stackOverflow a w)) ↔ 16 ≤ s.sp.val) ∧
      (t.status = .running ↔ s.sp.val < 16) ∧
      (16 ≤ s.sp.val → SameStack s t ∧ t.sp = s.sp ∧ SameRegs s t ∧ SameMemory s t ∧ t.pc = s.pc)

/-- R131: RET at `a`, entered with `pc = a + 2`. It decrements `SP` and loads the entry there into `pc`, leaving the slot
as it was; with the stack empty it faults with StackUnderflow, carrying `a` and its word. -/
def Obligations.RetPopsIntoPc : Prop :=
  ∀ (s : State) (a : Word), s.pc = a + 2#16 →
    (∀ i : Fin 16, s.sp.val = i.val + 1 →
      ∃ t, exec .ret s = .next t ∧ t.sp.val = i.val ∧ t.pc = s.readStack i ∧
        SameStack s t ∧ SameRegs s t ∧ SameMemory s t ∧ t.status = s.status) ∧
    (s.sp.val = 0 →
      ∃ t, exec .ret s = .next t ∧ t.status = .faulted (.stackUnderflow a 0x00EE#16) ∧
        SameStack s t ∧ t.sp = s.sp ∧ SameRegs s t ∧ SameMemory s t)

/-- HALT ends the run and leaves everything else, `pc` included, as last written (40_fetch_decode_dispatch.md section 5). -/
def Obligations.HaltLeavesTheRest : Prop :=
  ∀ s : State, ∃ t, exec .halt s = .next t ∧ t.status = .halted ∧
    SameRegs s t ∧ SameMemory s t ∧ SameStack s t ∧ t.sp = s.sp ∧ t.pc = s.pc

/-! ### Stack laws -/

/-- Two steps, a CALL and the RET it jumps to, come back to the instruction after the CALL with `SP`, registers and memory
as before; of the stack only the slot pushed has changed (41_call_return.md section 3). -/
def Obligations.CallThenRetComesBack : Prop :=
  ∀ (s : State) (nnn : Addr12), s.status = .running → s.sp.val < 16 → s.canFetch →
    s.decodedAtPc = .instr (.call nnn) → nnn.toNat + 1 < 4096 →
    decodeBytes [s.readMem nnn.toNat, s.readMem (nnn.toNat + 1)] = .instr .ret →
    ∃ t : State, core.run 2 s = .next t ∧ t.pc.toNat = s.pc.toNat + 2 ∧ t.sp = s.sp ∧ t.status = .running ∧
      SameRegs s t ∧ SameMemory s t ∧
      ∀ i : Fin 16, t.readStack i = if i.val = s.sp.val then s.pc + 2#16 else s.readStack i

/-- CALLs in a row from an empty stack, to any targets: up to sixteen succeed and leave `SP` at their number; of more, the
seventeenth faults with StackOverflow (41_call_return.md section 3). -/
def Obligations.SixteenCallsNest : Prop :=
  ∀ (s : State) (targets : List Addr12), s.status = .running → s.sp.val = 0 →
    (targets.length ≤ 16 →
      ∃ t, execEach (targets.map .call) s = .next t ∧ t.status = .running ∧ t.sp.val = targets.length ∧
        SameRegs s t ∧ SameMemory s t) ∧
    (16 < targets.length →
      ∃ (t : State) (a w : Word), execEach (targets.map .call) s = .next t ∧ t.status = .faulted (.stackOverflow a w) ∧
        t.sp.val = 16 ∧ SameRegs s t ∧ SameMemory s t)

/-! ### Rules of the whole machine -/

/-- A step that ends in a fault had that fault's condition and no earlier one, and records the address and the word of
the instruction (60_exceptions.md section 1; the info recorded is the spec's own choice D6). -/
def Obligations.FaultsHaveTheirCause : Prop :=
  ∀ (s t : State) (f : Fault), s.status = .running → step s = .next t → t.status = .faulted f →
    match f with
    | .outOfBoundsFetch a => a = s.pc ∧ 4096 ≤ s.pc.toNat + 1
    | .unimplementedOpcode a w => a = s.pc ∧ s.fetch = some w ∧ ∀ r ∈ opcodeMap, ¬ r.Matches w
    | .stackOverflow a w => a = s.pc ∧ s.fetch = some w ∧ w.toNat / 4096 = 0x2 ∧ s.sp.val = 16
    | .stackUnderflow a w => a = s.pc ∧ s.fetch = some w ∧ w = 0x00EE#16 ∧ s.sp.val = 0

/-- A step that ends in a fault writes no register, byte, stack entry or `SP` (60_exceptions.md section 1). The `pc`
clause is the spec's own choice D7 (log entry 8). -/
def Obligations.FaultingStepWritesNothing : Prop :=
  ∀ (s t : State) (f : Fault), s.status = .running → step s = .next t → t.status = .faulted f →
    SameRegs s t ∧ SameMemory s t ∧ SameStack s t ∧ t.sp = s.sp ∧
    (4096 ≤ s.pc.toNat + 1 → t.pc = s.pc) ∧ (s.pc.toNat + 1 < 4096 → t.pc.toNat = s.pc.toNat + 2)

/-- The run halts in a step exactly when the word fetched is the all-zero word (40_fetch_decode_dispatch.md section 5,
70_reset_and_hazards.md section 3). -/
def Obligations.OnlyTheZeroWordHalts : Prop :=
  ∀ s t : State, s.status = .running → step s = .next t → (t.status = .halted ↔ s.fetch = some 0x0000#16)

/-- Memory is constant for the whole of a run, of any length and from any state (20_memory.md section 7). -/
def Obligations.RunsNeverWriteMemory : Prop :=
  ∀ (k : Nat) (s t : State), core.run k s = .next t → SameMemory s t

/-- A step changes a register only if it runs an ADD, and then only that ADD's destination and VF (10_state.md sections 2
and 3; that CALL, RET and HALT write none is the spec's own choice D19). -/
def Obligations.OnlyAddWritesRegisters : Prop :=
  ∀ (s t : State) (r : Reg), s.status = .running → step s = .next t → t.readReg r ≠ s.readReg r →
    ∃ x y : Reg, s.canFetch ∧ s.decodedAtPc = .instr (.add x y) ∧ (r = x ∨ r = Reg.vf)

/-- Only CALL and RET move `SP`, by one; only CALL writes a stack entry, the one `SP` named, with the return address
(10_state.md section 5). -/
def Obligations.OnlyCallAndRetMoveTheStack : Prop :=
  ∀ s t : State, s.status = .running → step s = .next t →
    (t.sp ≠ s.sp →
      (∃ nnn, s.decodedAtPc = .instr (.call nnn) ∧ t.sp.val = s.sp.val + 1) ∨
      (s.decodedAtPc = .instr .ret ∧ s.sp.val = t.sp.val + 1)) ∧
    (∀ i : Fin 16, t.readStack i ≠ s.readStack i →
      (∃ nnn, s.decodedAtPc = .instr (.call nnn)) ∧ i.val = s.sp.val ∧ (t.readStack i).toNat = s.pc.toNat + 2)

/-- Where a step that raises no fault leaves `pc`: CALL at `nnn`, RET at the popped entry, ADD and HALT 2 further on
(10_state.md section 4). -/
def Obligations.PcFollowsTheInstruction : Prop :=
  ∀ (s t : State) (i : Instr), s.status = .running → s.canFetch → s.decodedAtPc = .instr i → step s = .next t →
    (∀ f, t.status ≠ .faulted f) →
    match i with
    | .halt => t.pc.toNat = s.pc.toNat + 2
    | .add _ _ => t.pc.toNat = s.pc.toNat + 2
    | .call nnn => t.pc.toNat = nnn.toNat
    | .ret => ∃ k : Fin 16, k.val + 1 = s.sp.val ∧ t.pc = s.readStack k

/-! ### Invariants, termination, noninterference -/

/-- Every step keeps the invariant: canonical memory, `pc` at most 0x1000, live stack slots return addresses
(10_state.md sections 4, 5 and 8). -/
def Obligations.StepKeepsTheInvariant : Prop :=
  ∀ s t : State, s.Inv → step s = .next t → t.Inv

/-- The state at construction meets the invariant. -/
def Obligations.ResetMeetsTheInvariant : Prop := State.reset.Inv

/-- From every state whatever, reachable or not, the run ends by a halt or a fault (70_reset_and_hazards.md section 3:
every run ends, derived there from the other rules). The tuple of the live stack entries and `pc` grows
lexicographically with every step that does not end the run. -/
def Obligations.EveryRunEnds : Prop := ∀ s : State, RunEnds s

/-- Nothing reads a register, VF included, as a condition: two machines that differ in registers alone take the same path
for any number of steps, to the same end (10_state.md section 3 for VF; for V0 to VE, 42_arithmetic.md section 2, by which
ADD's operands reach registers alone, and 10_state.md section 2: that HALT, RET and CALL read no register is the spec's own
choice D19, log entry 12). -/
def Obligations.RegistersDoNotSteerTheRun : Prop :=
  ∀ (k : Nat) (s t : State), s.SameButRegs t → OutcomeRel State.SameButRegs (core.run k s) (core.run k t)

/-- No instruction reads a free stack slot: two machines that differ in free slots alone run alike for any number of
steps, registers included (10_state.md section 5). -/
def Obligations.FreeSlotsAreNeverRead : Prop :=
  ∀ (k : Nat) (s t : State), s.SameButFreeSlots t → OutcomeRel State.SameButFreeSlots (core.run k s) (core.run k t)

/-! ### Construction and the caller -/

/-- Construction leaves every register, byte and stack entry, `SP` and `pc` zero and the status Idle (10_state.md section
8; `pc` and the status are the spec's own choices D2 and D8). -/
def Obligations.ConstructionZeroesEverything : Prop :=
  (∀ a : Nat, State.reset.readMem a = 0x00#8) ∧ (∀ r : Reg, State.reset.readReg r = 0x00#8) ∧
  (∀ i : Fin 16, State.reset.readStack i = 0x0000#16) ∧ State.reset.sp.val = 0 ∧ State.reset.pc = 0x000#16 ∧
  State.reset.status = .idle

/-- A load writes its one byte and nothing else while the status is Idle (10_state.md section 7). That a load outside
memory is refused is the spec's own choice D14. That a load in any other status is refused is the model's deduction, log
entry 10, and the canonical form is the model's, log entry 17. -/
def Obligations.LoadWritesItsByte : Prop :=
  ∀ (s : State) (a : Nat) (u : Byte), s.mem.wf →
    (s.status = .idle → a < 4096 →
      ∃ t, load a u s = .next t ∧ (∀ b : Nat, t.readMem b = if b = a then u else s.readMem b) ∧ t.mem.wf ∧
        SameRegs s t ∧ SameStack s t ∧ t.sp = s.sp ∧ t.pc = s.pc ∧ t.status = .idle) ∧
    (s.status = .idle → 4096 ≤ a → load a u s = .refused (.loadOutsideMemory a)) ∧
    (s.status ≠ .idle → load a u s = .refused .notIdle)

/-- A preset writes its one register, VF included, and nothing else while the status is Idle (10_state.md section 7; which
state may be preset is the spec's own choice D14). That a preset in any other status is refused is the model's deduction,
log entry 10. -/
def Obligations.PresetWritesItsRegister : Prop :=
  ∀ (s : State) (r : Reg) (u : Byte),
    (s.status = .idle →
      ∃ t, preset r u s = .next t ∧ (∀ q : Reg, t.readReg q = if q = r then u else s.readReg q) ∧
        SameMemory s t ∧ SameStack s t ∧ t.sp = s.sp ∧ t.pc = s.pc ∧ t.status = .idle) ∧
    (s.status ≠ .idle → preset r u s = .refused .notIdle)

/-- A start makes an Idle machine Running and changes nothing else; from any other status it is refused (10_state.md
section 7, D8). -/
def Obligations.StartOnlyFromIdle : Prop :=
  ∀ s : State,
    (s.status = .idle →
      ∃ t, start s = .next t ∧ t.status = .running ∧
        SameRegs s t ∧ SameMemory s t ∧ SameStack s t ∧ t.sp = s.sp ∧ t.pc = s.pc) ∧
    (s.status ≠ .idle → start s = .refused .notIdle)

/-- After a halt the caller reads every register, byte, stack entry, `SP` and `pc`, and after a fault the fault
(10_state.md section 7). That every inspection of a faulted machine answers its fault, and that an inspection before the run
has ended is refused, are the model's deductions, log entry 10. -/
def Obligations.InspectionAfterTheRun : Prop :=
  ∀ s : State,
    (s.status = .halted →
      (∀ r, inspectReg r s = .next (s.readReg r)) ∧ (∀ a, inspectMem a s = .next (s.readMem a.toNat)) ∧
      (∀ i, inspectStack i s = .next (s.readStack i)) ∧ inspectSp s = .next s.sp ∧ inspectPc s = .next s.pc) ∧
    (∀ f, s.status = .faulted f →
      (∀ r, inspectReg r s = .fault f) ∧ (∀ a, inspectMem a s = .fault f) ∧ (∀ i, inspectStack i s = .fault f) ∧
      inspectSp s = .fault f ∧ inspectPc s = .fault f) ∧
    (s.status = .idle ∨ s.status = .running →
      (∀ r, inspectReg r s = .refused .runNotEnded) ∧ (∀ a, inspectMem a s = .refused .runNotEnded) ∧
      (∀ i, inspectStack i s = .refused .runNotEnded) ∧ inspectSp s = .refused .runNotEnded ∧
      inspectPc s = .refused .runNotEnded)

/-- Boot with any image inside memory and any presets: the machine is Running at the entry point with an empty stack; an
address reads the byte last loaded there, or 0x00; a register reads the value last preset, or 0x00; and the invariant
holds (70_reset_and_hazards.md section 2). -/
def Obligations.BootStartsAtTheEntryPoint : Prop :=
  ∀ (image : List (Nat × Byte)) (presets : List (Reg × Byte)), (∀ c ∈ image, c.1 < 4096) →
    ∃ s, boot image presets = .next s ∧ s.Inv ∧ s.status = .running ∧ s.pc = 0x000#16 ∧ s.sp.val = 0 ∧
      (∀ a, (∀ c ∈ image, c.1 ≠ a) → s.readMem a = 0x00#8) ∧
      (∀ before after a u, image = before ++ (a, u) :: after → (∀ c ∈ after, c.1 ≠ a) → s.readMem a = u) ∧
      (∀ r, (∀ p ∈ presets, p.1 ≠ r) → s.readReg r = 0x00#8) ∧
      (∀ before after r u, presets = before ++ (r, u) :: after → (∀ p ∈ after, p.1 ≠ r) → s.readReg r = u)

/-- A step that fetches memory nobody has written halts (70_reset_and_hazards.md section 2: untouched memory executes
0x0000). -/
def Obligations.UntouchedMemoryHalts : Prop :=
  ∀ s : State, s.status = .running → s.canFetch → (∀ c ∈ s.mem, c.1 ≠ s.pc.toNat ∧ c.1 ≠ s.pc.toNat + 1) →
    ∃ t, step s = .next t ∧ t.status = .halted ∧ t.pc.toNat = s.pc.toNat + 2 ∧
      SameRegs s t ∧ SameMemory s t ∧ SameStack s t ∧ t.sp = s.sp
end

