-- ==== Sys2Proof/Laws/Decode.lean ====
section
/-! SUPPORT. What the decoder can answer, said once, and the numbers behind the fields. -/

namespace Sys2Proof

theorem decodeFields_c (w : Word) : (decodeFields w).c.toNat = w.toNat / 4096 := by
  have := w.isLt
  simp only [decodeFields, BitVec.extractLsb'_toNat, Nat.shiftRight_eq_div_pow]
  omega

theorem decodeFields_x (w : Word) : (decodeFields w).x.toNat = w.toNat / 256 % 16 := by
  simp only [decodeFields, BitVec.extractLsb'_toNat, Nat.shiftRight_eq_div_pow, Nat.reducePow]

theorem decodeFields_y (w : Word) : (decodeFields w).y.toNat = w.toNat / 16 % 16 := by
  simp only [decodeFields, BitVec.extractLsb'_toNat, Nat.shiftRight_eq_div_pow, Nat.reducePow]

theorem decodeFields_d (w : Word) : (decodeFields w).d.toNat = w.toNat % 16 := by
  simp only [decodeFields, BitVec.extractLsb'_toNat, Nat.shiftRight_zero, Nat.reducePow]

theorem decodeFields_nnn (w : Word) : (decodeFields w).nnn.toNat = w.toNat % 4096 := by
  simp only [decodeFields, BitVec.extractLsb'_toNat, Nat.shiftRight_zero, Nat.reducePow]

/-- A word is the sum of its nibbles at their places (R71). -/
theorem word_eq_fields (w : Word) :
    w.toNat = (decodeFields w).c.toNat * 4096 + (decodeFields w).x.toNat * 256 + (decodeFields w).y.toNat * 16 +
      (decodeFields w).d.toNat := by
  rw [decodeFields_c, decodeFields_x, decodeFields_y, decodeFields_d]
  omega

/-- The number of a combined word (R10, R51). -/
theorem concat8_toNat (hi lo : Byte) : (concat8 hi lo).toNat = hi.toNat * 256 + lo.toNat := by
  have := lo.isLt
  rw [concat8, BitVec.toNat_append, ← Nat.shiftLeft_add_eq_or_of_lt (by omega), Nat.shiftLeft_eq]

/-- The number of an instruction's word, from its operands (R72). -/
theorem encode_call_toNat (nnn : Addr12) : (encode (.call nnn)).toNat = 0x2000 + nnn.toNat := by
  have := nnn.isLt
  simp only [encode, BitVec.toNat_append]
  rw [← Nat.shiftLeft_add_eq_or_of_lt (by omega), Nat.shiftLeft_eq]
  rfl

theorem encode_add_toNat (x y : Reg) : (encode (.add x y)).toNat = 0x8004 + x.val * 256 + y.val * 16 := by
  have := x.isLt
  have := y.isLt
  simp only [encode, BitVec.toNat_append, BitVec.toNat_ofNat]
  rw [← Nat.shiftLeft_add_eq_or_of_lt (by omega), ← Nat.shiftLeft_add_eq_or_of_lt (by omega),
    ← Nat.shiftLeft_add_eq_or_of_lt (by omega)]
  simp only [Nat.shiftLeft_eq]
  omega

/-- Everything the decoder can answer for a word (R106, R108). -/
theorem decodeWord_cases (w : Word) :
    (w.toNat = 0x0000 ∧ decodeWord w = .instr .halt) ∨
    (w.toNat = 0x00EE ∧ decodeWord w = .instr .ret) ∨
    (w.toNat / 4096 = 0x2 ∧ decodeWord w = .instr (.call (decodeFields w).nnn)) ∨
    (w.toNat / 4096 = 0x8 ∧ w.toNat % 16 = 0x4 ∧
      decodeWord w = .instr (.add (regOf (decodeFields w).x) (regOf (decodeFields w).y))) ∨
    (w.toNat ≠ 0x0000 ∧ w.toNat ≠ 0x00EE ∧ w.toNat / 4096 ≠ 0x2 ∧ (w.toNat / 4096 = 0x8 → w.toNat % 16 ≠ 0x4) ∧
      decodeWord w = .reject (.unimplementedOpcode w)) := by
  have hw := word_eq_fields w
  have hc := decodeFields_c w
  have hd := decodeFields_d w
  unfold decodeWord selectInstr
  simp only [BitVec.toNat_eq (n := 4), BitVec.toNat_ofNat]
  split_ifs with h1 h2 h3 h4
  · exact .inl ⟨by omega, rfl⟩
  · exact .inr (.inl ⟨by omega, rfl⟩)
  · exact .inr (.inr (.inl ⟨by omega, rfl⟩))
  · exact .inr (.inr (.inr (.inl ⟨by omega, by omega, rfl⟩)))
  · exact .inr (.inr (.inr (.inr ⟨by omega, by omega, by omega, by omega, rfl⟩)))

/-- A rejected word is rejected with the word itself (R108). -/
theorem decodeWord_reject {w : Word} {r : Reject} (h : decodeWord w = .reject r) : r = .unimplementedOpcode w := by
  unfold decodeWord at h
  split at h
  · cases h
  · cases h; rfl

end Sys2Proof
end

