-- ==== Sys2Proof/Laws/Memory.lean ====
section
/-! SUPPORT. The laws of memory: a read after a write, and the canonical form, which every write keeps. -/

namespace Sys2Proof.Machine

@[simp] theorem Memory.read_nil (a : Nat) : Memory.read [] a = Config.unwrittenByte := rfl

theorem Memory.read_cons (b : Nat) (u : Byte) (m : Memory) (a : Nat) :
    Memory.read ((b, u) :: m) a = if a = b then u else Memory.read m a := rfl

/-- An address below every listed one reads as unwritten. -/
theorem Memory.read_eq_unwritten_of_lt {m : Memory} {a : Nat} (h : ∀ c ∈ m, a < c.1) :
    m.read a = Config.unwrittenByte := by
  induction m with
  | nil => rfl
  | cons c m ih =>
    obtain ⟨b, u⟩ := c
    have hb : a < b := h (b, u) List.mem_cons_self
    rw [Memory.read_cons, if_neg (Nat.ne_of_lt hb)]
    exact ih fun c hc => h c (List.mem_cons_of_mem _ hc)

/-- A read after a write on a memory in rising order: the byte written at its address, the old byte elsewhere. -/
theorem Memory.read_write {m : Memory} (hm : m.Pairwise fun c d => c.1 < d.1) (a a' : Nat) (u : Byte) :
    (m.write a u).read a' = if a' = a then u else m.read a' := by
  induction m with
  | nil =>
    unfold Memory.write
    by_cases hu : u = Config.unwrittenByte
    · simp [hu]
    · rw [if_neg hu, Memory.read_cons]
  | cons c m ih =>
    obtain ⟨b, t⟩ := c
    obtain ⟨hlt, hm'⟩ := List.pairwise_cons.mp hm
    generalize hR : (if a' = a then u else Memory.read ((b, t) :: m) a') = R
    unfold Memory.write
    split_ifs with hab hu hab' hu <;> rw [← hR]
    · by_cases ha : a' = a
      · subst ha
        rw [if_pos rfl, hu, Memory.read_cons, if_neg (Nat.ne_of_lt hab)]
        exact Memory.read_eq_unwritten_of_lt fun c hc => Nat.lt_trans hab (hlt c hc)
      · rw [if_neg ha]
    · rw [Memory.read_cons a]
    · subst hab'
      by_cases ha : a' = a
      · subst ha
        rw [if_pos rfl, hu]
        exact Memory.read_eq_unwritten_of_lt fun c hc => hlt c hc
      · rw [if_neg ha, Memory.read_cons, if_neg ha]
    · subst hab'
      rw [Memory.read_cons, Memory.read_cons]
      by_cases ha : a' = a
      · rw [if_pos ha, if_pos ha]
      · rw [if_neg ha, if_neg ha, if_neg ha]
    · rw [Memory.read_cons, Memory.read_cons, ih hm']
      by_cases ha : a' = b
      · subst ha
        rw [if_pos rfl, if_pos rfl, if_neg (Ne.symm hab')]
      · rw [if_neg ha, if_neg ha]

/-- A write lists no address but its own and the ones listed before. -/
theorem Memory.mem_write {m : Memory} {a : Nat} {u : Byte} {c : Host.Cell} (hc : c ∈ m.write a u) :
    (c = (a, u) ∧ u ≠ Config.unwrittenByte) ∨ c ∈ m := by
  induction m with
  | nil =>
    unfold Memory.write at hc
    split_ifs at hc with hu
    · exact absurd hc (by simp)
    · exact .inl ⟨List.mem_singleton.mp hc, hu⟩
  | cons d m ih =>
    obtain ⟨b, t⟩ := d
    unfold Memory.write at hc
    split_ifs at hc with hab hu hab' hu
    · exact .inr hc
    · exact (List.mem_cons.mp hc).imp (fun h => ⟨h, hu⟩) id
    · exact .inr (List.mem_cons_of_mem _ hc)
    · exact (List.mem_cons.mp hc).imp (fun h => ⟨h, hu⟩) (List.mem_cons_of_mem _)
    · rcases List.mem_cons.mp hc with h | h
      · exact .inr (h ▸ List.mem_cons_self)
      · exact (ih h).imp id (List.mem_cons_of_mem _)

/-- A write keeps the addresses strictly rising. -/
theorem Memory.pairwise_write {m : Memory} (hm : m.Pairwise fun c d => c.1 < d.1) (a : Nat) (u : Byte) :
    (m.write a u).Pairwise fun c d => c.1 < d.1 := by
  induction m with
  | nil => unfold Memory.write; split_ifs <;> simp
  | cons c m ih =>
    obtain ⟨b, t⟩ := c
    obtain ⟨hlt, hm'⟩ := List.pairwise_cons.mp hm
    unfold Memory.write
    split_ifs with hab hu hab' hu
    · exact hm
    · refine List.pairwise_cons.mpr ⟨fun d hd => ?_, hm⟩
      rcases List.mem_cons.mp hd with h | h
      · simpa [h] using hab
      · exact Nat.lt_trans hab (hlt d h)
    · exact hm'
    · exact List.pairwise_cons.mpr ⟨fun d hd => by simpa [hab'] using hlt d hd, hm'⟩
    · refine List.pairwise_cons.mpr ⟨fun d hd => ?_, ih hm'⟩
      rcases Memory.mem_write hd with ⟨h, -⟩ | h
      · simp only [h]; omega
      · exact hlt d h

/-- A write inside memory keeps the canonical form. -/
theorem Memory.wf_write {m : Memory} (hm : m.wf) {a : Nat} (ha : a < Config.memSize) (u : Byte) : (m.write a u).wf := by
  refine ⟨Memory.pairwise_write hm.1 a u, fun c hc => ?_⟩
  rcases Memory.mem_write hc with ⟨rfl, hu⟩ | h
  · exact ⟨ha, hu⟩
  · exact hm.2 c h

/-- Memory at construction is in the canonical form. -/
theorem Memory.wf_reset : State.reset.mem.wf :=
  ⟨List.Pairwise.nil, fun _ hc => absurd hc (by simp [State.reset])⟩

/-- Canonical memories that read alike at every address are equal. -/
theorem Memory.ext_of_read {m m' : Memory} (hm : m.wf) (hm' : m'.wf) (h : ∀ a, m.read a = m'.read a) : m = m' := by
  induction m generalizing m' with
  | nil =>
    cases m' with
    | nil => rfl
    | cons c m' =>
      obtain ⟨b, u⟩ := c
      have := h b
      rw [Memory.read_cons, if_pos rfl] at this
      exact absurd this.symm (hm'.2 (b, u) List.mem_cons_self).2
  | cons c m ih =>
    obtain ⟨b, u⟩ := c
    obtain ⟨hlt, hp⟩ := List.pairwise_cons.mp hm.1
    have hu : u ≠ Config.unwrittenByte := (hm.2 (b, u) List.mem_cons_self).2
    have hb : m'.read b = u := by rw [← h b, Memory.read_cons, if_pos rfl]
    cases m' with
    | nil => exact absurd hb.symm hu
    | cons c' m' =>
      obtain ⟨b', u'⟩ := c'
      obtain ⟨hlt', hp'⟩ := List.pairwise_cons.mp hm'.1
      have hu' : u' ≠ Config.unwrittenByte := (hm'.2 (b', u') List.mem_cons_self).2
      have hb' : Memory.read ((b, u) :: m) b' = u' := by rw [h b', Memory.read_cons, if_pos rfl]
      have hbb : b = b' := by
        rcases Nat.lt_trichotomy b b' with hl | he | hg
        · refine absurd (hb ▸ Memory.read_eq_unwritten_of_lt fun d hd => ?_ : u = Config.unwrittenByte) hu
          rcases List.mem_cons.mp hd with rfl | hd
          · exact hl
          · exact Nat.lt_trans hl (hlt' d hd)
        · exact he
        · refine absurd (hb' ▸ Memory.read_eq_unwritten_of_lt fun d hd => ?_ : u' = Config.unwrittenByte) hu'
          rcases List.mem_cons.mp hd with rfl | hd
          · exact hg
          · exact Nat.lt_trans hg (hlt d hd)
      subst hbb
      have huu : u' = u := by rwa [Memory.read_cons, if_pos rfl] at hb
      subst huu
      refine congrArg _ (ih ⟨hp, fun d hd => hm.2 d (List.mem_cons_of_mem _ hd)⟩
        ⟨hp', fun d hd => hm'.2 d (List.mem_cons_of_mem _ hd)⟩ fun a => ?_)
      have ha := h a
      rw [Memory.read_cons, Memory.read_cons] at ha
      by_cases hab : a = b
      · subst hab
        rw [Memory.read_eq_unwritten_of_lt hlt, Memory.read_eq_unwritten_of_lt hlt']
      · rwa [if_neg hab, if_neg hab] at ha

end Sys2Proof.Machine
end

