-- ==== Sys2Proof/Laws/State.lean ====
section
/-! SUPPORT. One lemma per field per update of State, so that no proof unfolds a record update. -/

namespace Sys2Proof.Machine

variable (s : State) (a : Nat) (u : Byte) (r q : Reg) (t : Word) (f : Fault)

@[simp] theorem writeMem_mem : (s.writeMem a u).mem = s.mem.write a u := rfl
@[simp] theorem writeMem_v : (s.writeMem a u).v = s.v := rfl
@[simp] theorem writeMem_stack : (s.writeMem a u).stack = s.stack := rfl
@[simp] theorem writeMem_sp : (s.writeMem a u).sp = s.sp := rfl
@[simp] theorem writeMem_pc : (s.writeMem a u).pc = s.pc := rfl
@[simp] theorem writeMem_status : (s.writeMem a u).status = s.status := rfl

@[simp] theorem writeReg_mem : (s.writeReg r u).mem = s.mem := rfl
@[simp] theorem writeReg_v : (s.writeReg r u).v = s.v.set r.val u r.isLt := rfl
@[simp] theorem writeReg_stack : (s.writeReg r u).stack = s.stack := rfl
@[simp] theorem writeReg_sp : (s.writeReg r u).sp = s.sp := rfl
@[simp] theorem writeReg_pc : (s.writeReg r u).pc = s.pc := rfl
@[simp] theorem writeReg_status : (s.writeReg r u).status = s.status := rfl

@[simp] theorem jump_mem : (s.jump t).mem = s.mem := rfl
@[simp] theorem jump_v : (s.jump t).v = s.v := rfl
@[simp] theorem jump_stack : (s.jump t).stack = s.stack := rfl
@[simp] theorem jump_sp : (s.jump t).sp = s.sp := rfl
@[simp] theorem jump_pc : (s.jump t).pc = t := rfl
@[simp] theorem jump_status : (s.jump t).status = s.status := rfl

@[simp] theorem advancePc_mem : s.advancePc.mem = s.mem := rfl
@[simp] theorem advancePc_v : s.advancePc.v = s.v := rfl
@[simp] theorem advancePc_stack : s.advancePc.stack = s.stack := rfl
@[simp] theorem advancePc_sp : s.advancePc.sp = s.sp := rfl
@[simp] theorem advancePc_pc : s.advancePc.pc = s.pc + 2#16 := rfl
@[simp] theorem advancePc_status : s.advancePc.status = s.status := rfl

@[simp] theorem halt_mem : s.halt.mem = s.mem := rfl
@[simp] theorem halt_v : s.halt.v = s.v := rfl
@[simp] theorem halt_stack : s.halt.stack = s.stack := rfl
@[simp] theorem halt_sp : s.halt.sp = s.sp := rfl
@[simp] theorem halt_pc : s.halt.pc = s.pc := rfl
@[simp] theorem halt_status : s.halt.status = .halted := rfl

@[simp] theorem raise_mem : (s.raise f).mem = s.mem := rfl
@[simp] theorem raise_v : (s.raise f).v = s.v := rfl
@[simp] theorem raise_stack : (s.raise f).stack = s.stack := rfl
@[simp] theorem raise_sp : (s.raise f).sp = s.sp := rfl
@[simp] theorem raise_pc : (s.raise f).pc = s.pc := rfl
@[simp] theorem raise_status : (s.raise f).status = .faulted f := rfl

@[simp] theorem enterRun_mem : s.enterRun.mem = s.mem := rfl
@[simp] theorem enterRun_v : s.enterRun.v = s.v := rfl
@[simp] theorem enterRun_stack : s.enterRun.stack = s.stack := rfl
@[simp] theorem enterRun_sp : s.enterRun.sp = s.sp := rfl
@[simp] theorem enterRun_pc : s.enterRun.pc = s.pc := rfl
@[simp] theorem enterRun_status : s.enterRun.status = .running := rfl

theorem readMem_def : s.readMem a = s.mem.read a := rfl

/-- A register reads what was last written to it, and writing one register leaves the others alone (R21). -/
theorem readReg_writeReg : (s.writeReg r u).readReg q = if q = r then u else s.readReg q := by
  simp only [State.readReg, State.writeReg, Fin.getElem_fin, Vector.getElem_set, Fin.ext_iff, eq_comm]

@[simp] theorem readReg_writeReg_same : (s.writeReg r u).readReg r = u := by
  simp [readReg_writeReg]

/-- Reads of registers depend on the register file only. -/
theorem readReg_congr {s s' : State} (h : s.v = s'.v) (r : Reg) : s.readReg r = s'.readReg r := by
  simp only [State.readReg, h]

/-- Reads of stack entries depend on the stack array only. -/
theorem readStack_congr {s s' : State} (h : s.stack = s'.stack) (i : Fin 16) : s.readStack i = s'.readStack i := by
  simp only [State.readStack, h]

/-- Equal register files are those whose registers read alike. -/
theorem v_ext {s s' : State} (h : ∀ r : Reg, s.readReg r = s'.readReg r) : s.v = s'.v :=
  Vector.ext fun i hi => h ⟨i, hi⟩

/-- Equal stack arrays are those whose entries read alike. -/
theorem stack_ext {s s' : State} (h : ∀ i : Fin 16, s.readStack i = s'.readStack i) : s.stack = s'.stack :=
  Vector.ext fun i hi => h ⟨i, hi⟩

/-- Two states with equal fields are equal. -/
theorem State.eq_of_fields {s s' : State} (hm : s.mem = s'.mem) (hv : s.v = s'.v) (hk : s.stack = s'.stack)
    (hs : s.sp = s'.sp) (hp : s.pc = s'.pc) (hst : s.status = s'.status) : s = s' := by
  cases s; cases s'; simp_all

end Sys2Proof.Machine
end

