-- ==== Sys2Proof/Laws/Ops.lean ====
section
/-! SUPPORT. One lemma per shared operation that says all it can do. -/

namespace Sys2Proof.Machine

/-- A push with a free slot, as one equation (R130). -/
theorem State.push_eq {s : State} (ra : Word) (h : s.sp.val < 16) :
    s.push ra =
      some { s with stack := s.stack.set s.sp.val ra h, sp := ⟨s.sp.val + 1, Nat.succ_lt_succ h⟩ } := dif_pos h

/-- A pop from a stack that is not empty, as one equation (R131). -/
theorem State.pop_eq {s : State} (i : Fin 16) (h : s.sp.val = i.val + 1) :
    s.pop = some (s.readStack i, { s with sp := i.castSucc }) := by
  obtain ⟨i, hi⟩ := i
  have hne : ¬ s.sp.val = 0 := by simp only at h; omega
  have he : s.sp.val - 1 = i := by simp only at h; omega
  unfold State.pop
  rw [dif_neg hne]
  simp only [he, State.readStack, Fin.getElem_fin, Fin.castSucc_mk]

/-- Everything a successful push does (R130). -/
theorem State.push_some {s t : State} {ra : Word} (h : s.push ra = some t) :
    ∃ hlt : s.sp.val < 16, t.mem = s.mem ∧ t.v = s.v ∧ t.stack = s.stack.set s.sp.val ra hlt ∧
      t.sp.val = s.sp.val + 1 ∧ t.pc = s.pc ∧ t.status = s.status := by
  unfold State.push at h
  split at h
  · next hlt => cases h; exact ⟨hlt, rfl, rfl, rfl, rfl, rfl, rfl⟩
  · cases h

/-- A push fails exactly when the stack is full (R134). -/
theorem State.push_none {s : State} {ra : Word} : s.push ra = none ↔ 16 ≤ s.sp.val := by
  unfold State.push
  split <;> simp_all

/-- A push succeeds when there is a free slot (R134). -/
theorem State.push_of_lt {s : State} (ra : Word) (h : s.sp.val < 16) : ∃ t, s.push ra = some t := by
  cases hp : s.push ra with
  | some t => exact ⟨t, rfl⟩
  | none => exact absurd (State.push_none.mp hp) (by omega)

/-- The stack entries after a push: the pushed address in the slot `SP` named, the others unchanged (R130). -/
theorem State.push_readStack {s t : State} {ra : Word} (h : s.push ra = some t) (i : Fin 16) :
    t.readStack i = if i.val = s.sp.val then ra else s.readStack i := by
  obtain ⟨hlt, -, -, hs, -⟩ := State.push_some h
  simp only [State.readStack, hs, Fin.getElem_fin, Vector.getElem_set, eq_comm]

/-- Everything a successful pop does (R131). -/
theorem State.pop_some {s t : State} {ra : Word} (h : s.pop = some (ra, t)) :
    ∃ i : Fin 16, i.val + 1 = s.sp.val ∧ ra = s.readStack i ∧ t.mem = s.mem ∧ t.v = s.v ∧ t.stack = s.stack ∧
      t.sp.val = i.val ∧ t.pc = s.pc ∧ t.status = s.status := by
  unfold State.pop at h
  split at h
  · cases h
  · next hne =>
    cases h
    have hsp := s.sp.isLt
    exact ⟨⟨s.sp.val - 1, by omega⟩, by simp only []; omega, rfl, rfl, rfl, rfl, rfl, rfl, rfl⟩

/-- A pop fails exactly when the stack is empty (R131). -/
theorem State.pop_none {s : State} : s.pop = none ↔ s.sp.val = 0 := by
  unfold State.pop
  split <;> simp_all

/-- A pop succeeds when the stack is not empty (R131). -/
theorem State.pop_of_pos {s : State} (h : s.sp.val ≠ 0) : ∃ ra t, s.pop = some (ra, t) := by
  cases hp : s.pop with
  | some p => exact ⟨p.1, p.2, rfl⟩
  | none => exact absurd (State.pop_none.mp hp) h

/-- A successful fetch passed the bound check and reads two bytes, high byte first (R100, R101). -/
theorem State.fetch_some {s : State} {w : Word} (h : s.fetch = some w) :
    s.pc.toNat + 1 < 4096 ∧ w = concat8 (s.readMem s.pc.toNat) (s.readMem (s.pc.toNat + 1)) := by
  unfold State.fetch at h
  split at h
  · next hb => exact ⟨hb, (Option.some.inj h).symm⟩
  · cases h

/-- A fetch fails exactly when the bound check does (R101). -/
theorem State.fetch_none {s : State} : s.fetch = none ↔ 4096 ≤ s.pc.toNat + 1 := by
  unfold State.fetch
  split
  · next h => exact ⟨fun hn => absurd hn (by simp), fun hn => absurd h (Nat.not_lt.mpr hn)⟩
  · next h => exact ⟨fun _ => Nat.not_lt.mp h, fun _ => rfl⟩

/-- After a successful fetch the advance does not wrap (R105). -/
theorem State.advancePc_toNat {s : State} {w : Word} (h : s.fetch = some w) :
    s.advancePc.pc.toNat = s.pc.toNat + 2 := by
  have := (State.fetch_some h).1
  simp only [advancePc_pc, BitVec.toNat_add, BitVec.toNat_ofNat]
  omega

/-- While a handler runs, `handlerAddr` is the address the word was fetched from. -/
theorem State.handlerAddr_advancePc (s : State) : s.advancePc.handlerAddr = s.pc := by
  simp [State.handlerAddr, State.advancePc]

/-- The fetch depends on memory and `pc` only (R102). -/
theorem State.fetch_congr {s t : State} (hm : s.mem = t.mem) (hp : s.pc = t.pc) : s.fetch = t.fetch := by
  simp only [State.fetch, State.readMem, hm, hp]

/-- A placed word is what the next fetch reads, on a memory in rising order. -/
theorem State.fetch_placeWord {s : State} (hm : s.mem.Pairwise fun c d => c.1 < d.1) (w : Word) :
    (s.placeWord w).fetch = some w := by
  have hpl : s.fetchPlace.toNat + 1 < 4096 := by
    unfold State.fetchPlace
    split
    · next h => exact h
    · decide
  have hm' := Memory.pairwise_write hm s.fetchPlace.toNat (highByte w)
  have hw : concat8 (highByte w) (lowByte w) = w := by
    unfold concat8 highByte lowByte
    ext i hi
    simp only [BitVec.getElem_append, BitVec.getElem_extractLsb']
    split
    · simp [BitVec.getLsbD_eq_getElem hi]
    · rw [show 8 + (i - 8) = i by omega, BitVec.getLsbD_eq_getElem hi]
  simp only [State.fetch, State.placeWord, enterRun_pc, writeMem_pc, jump_pc, State.readMem, enterRun_mem,
    writeMem_mem, jump_mem, Memory.read_write hm', Memory.read_write hm]
  rw [if_pos hpl, if_neg (by omega)]
  simp only [if_true, hw]

end Sys2Proof.Machine
end

