-- ==== Sys2Proof/Laws/Exec.lean ====
section
/-! SUPPORT. What each handler, the run loop and the step can do, said once: later proofs cite these and unfold nothing. -/

namespace Sys2Proof.Machine

theorem exec_halt (s : State) : exec .halt s = .next s.halt := rfl

/-- ADD's next state (R150). -/
theorem exec_add (x y : Reg) (s : State) :
    exec (.add x y) s =
      .next ((s.writeReg x (BitVec.ofNat 8 (s.regOperand x + s.regOperand y))).writeReg Reg.vf
        (carryFlag (s.regOperand x + s.regOperand y))) := rfl

/-- CALL's next state: the push and the jump, or the fault (R130). -/
theorem exec_call (nnn : Addr12) (s : State) :
    (∃ t, s.push s.pc = some t ∧ exec (.call nnn) s = .next (t.jump (callTarget nnn))) ∨
    (16 ≤ s.sp.val ∧
      exec (.call nnn) s = .next (s.raise (.stackOverflow s.handlerAddr (encode (.call nnn))))) := by
  cases h : s.push s.pc with
  | some t => exact .inl ⟨t, rfl, by simp only [exec, execCall, h]⟩
  | none => exact .inr ⟨State.push_none.mp h, by simp only [exec, execCall, h]⟩

/-- RET's next state: the pop and the jump, or the fault (R131). -/
theorem exec_ret (s : State) :
    (∃ ra t, s.pop = some (ra, t) ∧ exec .ret s = .next (t.jump ra)) ∨
    (s.sp.val = 0 ∧ exec .ret s = .next (s.raise (.stackUnderflow s.handlerAddr (encode .ret)))) := by
  cases h : s.pop with
  | some p => exact .inl ⟨p.1, p.2, rfl, by simp only [exec, execRet, h]⟩
  | none => exact .inr ⟨State.pop_none.mp h, by simp only [exec, execRet, h]⟩

/-- Everything a handler can do, said once: the six ways one ends (R107, R130, R131, R150). -/
theorem exec_cases {i : Instr} {s t : State} (h : exec i s = .next t) :
    (i = .halt ∧ t = s.halt) ∨
    (∃ x y, i = .add x y ∧
      t = (s.writeReg x (BitVec.ofNat 8 (s.regOperand x + s.regOperand y))).writeReg Reg.vf
        (carryFlag (s.regOperand x + s.regOperand y))) ∨
    (∃ nnn u, i = .call nnn ∧ s.push s.pc = some u ∧ t = u.jump (callTarget nnn)) ∨
    (∃ nnn, i = .call nnn ∧ 16 ≤ s.sp.val ∧ t = s.raise (.stackOverflow s.handlerAddr (encode (.call nnn)))) ∨
    (∃ ra u, i = .ret ∧ s.pop = some (ra, u) ∧ t = u.jump ra) ∨
    (i = .ret ∧ s.sp.val = 0 ∧ t = s.raise (.stackUnderflow s.handlerAddr (encode .ret))) := by
  cases i with
  | halt => cases h; exact .inl ⟨rfl, rfl⟩
  | add x y => cases h; exact .inr (.inl ⟨x, y, rfl, rfl⟩)
  | call nnn =>
    obtain ⟨u, hu, he⟩ | ⟨hs, he⟩ := exec_call nnn s
    · rw [he] at h; cases h; exact .inr (.inr (.inl ⟨nnn, u, rfl, hu, rfl⟩))
    · rw [he] at h; cases h; exact .inr (.inr (.inr (.inl ⟨nnn, rfl, hs, rfl⟩)))
  | ret =>
    obtain ⟨ra, u, hu, he⟩ | ⟨hs, he⟩ := exec_ret s
    · rw [he] at h; cases h; exact .inr (.inr (.inr (.inr (.inl ⟨ra, u, rfl, hu, rfl⟩))))
    · rw [he] at h; cases h; exact .inr (.inr (.inr (.inr (.inr ⟨rfl, hs, rfl⟩))))

/-- A handler always answers a next state: a fault is one too, with its status (R200). -/
theorem exec_next (i : Instr) (s : State) : ∃ t, exec i s = .next t := by
  cases i with
  | halt => exact ⟨_, rfl⟩
  | add x y => exact ⟨_, rfl⟩
  | call nnn => obtain ⟨t, -, h⟩ | ⟨-, h⟩ := exec_call nnn s <;> exact ⟨_, h⟩
  | ret => obtain ⟨ra, t, -, h⟩ | ⟨-, h⟩ := exec_ret s <;> exact ⟨_, h⟩

/-- No handler writes memory (R62). -/
theorem exec_mem {i : Instr} {s t : State} (h : exec i s = .next t) : t.mem = s.mem := by
  obtain ⟨-, rfl⟩ | ⟨x, y, -, rfl⟩ | ⟨nnn, u, -, hu, rfl⟩ | ⟨nnn, -, -, rfl⟩ | ⟨ra, u, -, hu, rfl⟩ | ⟨-, -, rfl⟩ :=
    exec_cases h
  · rfl
  · rfl
  · obtain ⟨-, hm, -⟩ := State.push_some hu
    exact hm
  · rfl
  · obtain ⟨_, -, -, hm, -⟩ := State.pop_some hu
    exact hm
  · rfl

/-- Everything a step of the run loop can do (R104). -/
theorem runStep_cases (s : State) :
    (s.fetch = none ∧ runStep s = .next (s.raise (.outOfBoundsFetch s.pc))) ∨
    (∃ w i, s.fetch = some w ∧ decodeWord w = .instr i ∧ runStep s = exec i s.advancePc) ∨
    (∃ w, s.fetch = some w ∧ decodeWord w = .reject (.unimplementedOpcode w) ∧
      runStep s = .next (s.advancePc.raise (.unimplementedOpcode s.pc w))) := by
  cases hf : s.fetch with
  | none => exact .inl ⟨rfl, by simp only [runStep, hf]⟩
  | some w =>
    cases hd : decodeWord w with
    | instr i => exact .inr (.inl ⟨w, i, rfl, hd, by simp only [runStep, hf, hd]⟩)
    | reject r =>
      have hr := decodeWord_reject hd
      subst hr
      exact .inr (.inr ⟨w, rfl, hd, by simp only [runStep, hf, hd]⟩)

/-- A step of the run loop always answers a next state. -/
theorem runStep_next (s : State) : ∃ t, runStep s = .next t := by
  obtain ⟨-, h⟩ | ⟨w, i, -, -, h⟩ | ⟨w, -, -, h⟩ := runStep_cases s
  · exact ⟨_, h⟩
  · exact h ▸ exec_next i s.advancePc
  · exact ⟨_, h⟩

theorem step_idle {s : State} (h : s.status = .idle) : step s = runStep s.enterRun := by
  simp only [step, stepInStatus, h]

theorem step_running {s : State} (h : s.status = .running) : step s = runStep s := by
  simp only [step, stepInStatus, h]

theorem step_halted {s : State} (h : s.status = .halted) : step s = .refused .runHalted := by
  simp only [step, stepInStatus, h]

theorem step_faulted {s : State} {f : Fault} (h : s.status = .faulted f) : step s = .fault f := by
  simp only [step, stepInStatus, h]

/-- A step that answers a next state is a step of the run loop, from a running state or from the started idle one. -/
theorem step_next {s t : State} (h : step s = .next t) :
    ∃ u, (s.status = .running ∧ u = s ∨ s.status = .idle ∧ u = s.enterRun) ∧ runStep u = .next t := by
  cases hs : s.status with
  | idle => exact ⟨s.enterRun, .inr ⟨rfl, rfl⟩, step_idle hs ▸ h⟩
  | running => exact ⟨s, .inl ⟨rfl, rfl⟩, step_running hs ▸ h⟩
  | halted => rw [step_halted hs] at h; cases h
  | faulted f => rw [step_faulted hs] at h; cases h

theorem core_step : Sys2Proof.core.step = step := rfl

theorem core_run_zero (s : State) : Sys2Proof.core.run 0 s = .next s := rfl

theorem core_run_succ (k : Nat) (s : State) :
    Sys2Proof.core.run (k + 1) s =
      match step s with
      | .next t => Sys2Proof.core.run k t
      | .fault r => .fault r
      | .refused r => .refused r := by
  cases h : step s <;> simp only [Host.Core.run, core_step, h]

end Sys2Proof.Machine
end

