-- ==== Sys2Proof/Laws/PerInstr.lean ====
section
/-! SUPPORT. The per-instruction families: RowMatch says that an instruction's word selects its own row of the opcode map
and that the row stands in the map under the instruction's mnemonic (R74). -/

namespace Sys2Proof.Laws.RowMatch

/-- The instruction's word selects its own row, which is a row of the map (R74). -/
def Statement (i : Instr) : Prop := i.row.Matches (encode i) ∧ i.row ∈ opcodeMap ∧ i.row.mnemonic = i.mnemonic

theorem halt : Statement .halt := by unfold Statement; decide

theorem ret : Statement .ret := by unfold Statement; decide

theorem call (nnn : Addr12) : Statement (.call nnn) := by
  refine ⟨?_, by simp [Instr.row, opcodeMap], rfl⟩
  unfold OpcodeRow.Matches Instr.row encode
  ext i hi
  simp only [BitVec.getElem_and, BitVec.getElem_append]
  interval_cases i <;> simp

theorem add (x y : Reg) : Statement (.add x y) := by
  refine ⟨?_, by simp [Instr.row, opcodeMap], rfl⟩
  revert x y
  decide

end Sys2Proof.Laws.RowMatch
end

