-- ==== Sys2Proof/Tests/Slice0.lean ====
section
/-! SUPPORT. The model's own tests. Expected results come from the tables of 95_test_vectors.md (their row is named in each
docstring) or are written out from the rule cited. The witness theorems show, for every obligation with hypotheses, a
concrete state that meets them together, one for each clause. -/

namespace Sys2Proof.Machine.Tests

/-- A running state with the given bytes, registers, stack pointer, stack entries and `pc`; the rest zero. -/
def runningAt (image : List (Nat × Byte)) (regs : List (Reg × Byte)) (sp : Fin 17) (stack : List (Fin 16 × Word))
    (pc : Word) : State where
  mem := image.foldl (fun m c => m.write c.1 c.2) []
  v := regs.foldl (fun v p => v.set p.1.val p.2 p.1.isLt) (Vector.replicate 16 0#8)
  stack := stack.foldl (fun k p => k.set p.1.val p.2 p.1.isLt) (Vector.replicate 16 0#16)
  sp := sp
  pc := pc
  status := .running

/-- The outcome is a next state that passes the check. -/
def answers (o : Host.Outcome State Fault Refusal) (check : State → Bool) : Bool :=
  match o with
  | .next s => check s
  | .fault _ => false
  | .refused _ => false

/-! ### Well-formedness (R79, R73) -/

theorem smoke_call_address_of_four_digits : (AsmTerm.call 0x1000).wellFormed = false ∧ (AsmTerm.call 0xFFF).wellFormed := by
  decide

theorem smoke_add_first_register : (AsmTerm.add 16 0).wellFormed = false ∧ (AsmTerm.add 15 0).wellFormed := by decide

theorem smoke_add_second_register : (AsmTerm.add 0 16).wellFormed = false ∧ (AsmTerm.add 0 15).wellFormed := by decide

theorem smoke_raw_word_of_five_digits : (AsmTerm.word 0x10000).wellFormed = false ∧ (AsmTerm.word 0xFFFF).wellFormed := by
  decide

theorem smoke_ill_formed_is_not_assembled :
    (AsmTerm.call 0x1000).assemble = none ∧ (AsmTerm.add 16 0).assemble = none ∧ (AsmTerm.add 0 16).assemble = none ∧
      (AsmTerm.word 0x10000).assemble = none := by decide

/-- P5 of 95_test_vectors.md, line by line. -/
theorem test_assemble :
    (AsmTerm.call 0x101).assemble = some 0x2101#16 ∧ (AsmTerm.add 2 2).assemble = some 0x8224#16 ∧
      AsmTerm.halt.assemble = some 0x0000#16 ∧ AsmTerm.ret.assemble = some 0x00EE#16 ∧
      (AsmTerm.word 0x1200).assemble = some 0x1200#16 := by decide

/-- R79's own examples. -/
theorem test_asm_text :
    (Instr.add 0 15).asm = "ADD V0, VF" ∧ (Instr.call 0x100).asm = "CALL 0x100" ∧ Instr.halt.asm = "HALT" ∧
      Instr.ret.asm = "RET" := by decide

/-! ### Decoding: words written out bit by bit from R72 -/

/-- FIXED: sixteen zero bits. -/
theorem test_decode_halt : decodeWord 0b0000000000000000#16 = .instr .halt := by decide

/-- FIXED: `0000 0000 1110 1110`. -/
theorem test_decode_ret : decodeWord 0b0000000011101110#16 = .instr .ret := by decide

/-- ADDR: `0010` and the address 0xABC, high byte first (DE3). -/
theorem test_decode_call : decodeBytes [0b00101010#8, 0b10111100#8] = .instr (.call 0xABC#12) := by decide

/-- REG2: `1000`, x = 0xA, y = 0xB, `0100` (DE4). -/
theorem test_decode_add : decodeBytes [0b10001010#8, 0b10110100#8] = .instr (.add 0xA 0xB) := by decide

/-- DE6. -/
theorem test_decode_fields : decodeFields 0x1234#16 = ⟨0x1#4, 0x2#4, 0x3#4, 0x4#4, 0x234#12⟩ := by decide

/-- DI3, DI4, DI11, DI12, DI13 and bytes that stop short of a word. -/
theorem test_decode_rejects :
    decodeWord 0x00EF#16 = .reject (.unimplementedOpcode 0x00EF#16) ∧
      decodeWord 0x01EE#16 = .reject (.unimplementedOpcode 0x01EE#16) ∧
      decodeWord 0x8005#16 = .reject (.unimplementedOpcode 0x8005#16) ∧
      decodeWord 0x8000#16 = .reject (.unimplementedOpcode 0x8000#16) ∧
      decodeWord 0x1000#16 = .reject (.unimplementedOpcode 0x1000#16) ∧
      decodeBytes [0x20#8] = .reject .truncated := by decide

/-- The opcode table's numbering: bit 0 is the low byte's. -/
theorem test_table_word :
    decodeTableWord 16 0x2ABC = some (.call 0xABC#12) ∧ decodeTableWord 16 0x8AB4 = some (.add 0xA 0xB) ∧
      decodeTableWord 16 0x00EE = some .ret ∧ decodeTableWord 16 0 = some .halt ∧ decodeTableWord 16 0x1234 = none := by
  decide

/-! ### One step on a small state -/

/-- HA1. -/
theorem test_halt :
    answers (step (runningAt [] [(0, 45#8), (15, 1#8)] 2 [] 0x004#16)) fun t =>
      t.status = .halted && t.pc = 0x006#16 && t.readReg 0 = 45#8 && t.readReg 15 = 1#8 && t.sp = 2 := by decide

/-- CA2: the last free slot, an odd target. -/
theorem test_call :
    answers (step (runningAt [(0x200, 0x21#8), (0x201, 0x23#8)] [] 15 [] 0x200#16)) fun t =>
      t.readStack 15 = 0x202#16 && t.sp = 16 && t.pc = 0x123#16 && t.status = .running := by decide

/-- CA3: the stack is full. -/
theorem test_call_overflow :
    answers (step (runningAt [(0x200, 0x21#8), (0x201, 0x23#8)] [] 16 [] 0x200#16)) fun t =>
      t.status = .faulted (.stackOverflow 0x200#16 0x2123#16) && t.sp = 16 && t.readStack 15 = 0#16 &&
        t.pc = 0x202#16 := by decide

/-- RE1: the slot is not cleared. -/
theorem test_ret :
    answers (step (runningAt [(0x105, 0xEE#8)] [] 1 [(0, 0x002#16)] 0x104#16)) fun t =>
      t.sp = 0 && t.pc = 0x002#16 && t.readStack 0 = 0x002#16 && t.status = .running := by decide

/-- RE2. -/
theorem test_ret_underflow :
    answers (step (runningAt [(0x001, 0xEE#8)] [] 0 [] 0x000#16)) fun t =>
      t.status = .faulted (.stackUnderflow 0x000#16 0x00EE#16) && t.sp = 0 && t.pc = 0x002#16 := by decide

/-- AD19 and AD5. -/
theorem test_add :
    (answers (exec (.add 0xA 0xB) (runningAt [] [(0xA, 0x10#8), (0xB, 0x20#8), (0, 9#8)] 0 [] 0x002#16)) fun t =>
      t.readReg 0xA = 0x30#8 && t.readReg 0xF = 0#8 && t.readReg 0 = 9#8 && t.readReg 0xB = 0x20#8) ∧
    answers (exec (.add 0 1) (runningAt [] [(0, 246#8), (1, 10#8)] 0 [] 0x002#16)) fun t =>
      t.readReg 0 = 0#8 && t.readReg 0xF = 1#8 := by decide

/-- AD13, AD15 and AD17: VF as destination, as source, as both. -/
theorem test_add_vf :
    (answers (exec (.add 0xF 1) (runningAt [] [(0xF, 5#8), (1, 3#8)] 0 [] 0x002#16)) fun t => t.readReg 0xF = 0#8) ∧
    (answers (exec (.add 0 0xF) (runningAt [] [(0, 1#8), (0xF, 0xFF#8)] 0 [] 0x002#16)) fun t =>
      t.readReg 0 = 0#8 && t.readReg 0xF = 1#8) ∧
    answers (exec (.add 0xF 0xF) (runningAt [] [(0xF, 0x80#8)] 0 [] 0x002#16)) fun t => t.readReg 0xF = 1#8 := by decide

/-- FE4 and FE5. -/
theorem test_fetch_bound :
    (answers (step (runningAt [] [] 0 [] 0xFFF#16)) fun t =>
      t.status = .faulted (.outOfBoundsFetch 0xFFF#16) && t.pc = 0xFFF#16) ∧
    answers (step (runningAt [] [] 0 [] 0x1000#16)) fun t =>
      t.status = .faulted (.outOfBoundsFetch 0x1000#16) && t.pc = 0x1000#16 := by decide

/-- UN2, and FE2's odd fetch. -/
theorem test_unimplemented :
    (answers (step (runningAt [(0x010, 0x8A#8), (0x011, 0xB5#8)] [(0xA, 1#8), (0xB, 2#8)] 0 [] 0x010#16)) fun t =>
      t.status = .faulted (.unimplementedOpcode 0x010#16 0x8AB5#16) && t.readReg 0xA = 1#8 && t.readReg 0xF = 0#8) ∧
    answers (step (runningAt [(0x101, 0x14#8)] [] 0 [] 0x101#16)) fun t =>
      t.status = .faulted (.unimplementedOpcode 0x101#16 0x1400#16) := by decide

/-- FE6: a step asked of the machine at construction starts the run and halts on memory never loaded. -/
theorem test_reset_step :
    answers (step State.reset) fun t => t.status = .halted && t.pc = 0x002#16 := by decide

/-- A word placed for the next fetch is the one that runs (R33, R35); at the top of memory it is placed at the entry. -/
theorem test_with_fetch_word :
    (answers (step (State.reset.withFetchWord 16 0x2123)) fun t => t.pc = 0x123#16 && t.readStack 0 = 0x002#16) ∧
    answers (step ((runningAt [] [] 0 [] 0x1000#16).withFetchWord 16 0x2123)) fun t => t.pc = 0x123#16 := by decide

/-- R33: writing 0x00 leaves a byte unlisted, so that equal memories are equal lists. -/
theorem test_memory_canonical :
    Memory.write (Memory.write (Memory.write [] 7 1#8) 3 2#8) 7 0#8 = [(3, 2#8)] := by decide

/-! ### Witnesses: every hypothesis of every obligation is met -/

theorem witness_DecodedBytesAreTheEncoding : decodeBytes [0x8F#8, 0xF4#8] = .instr (.add 15 15) := by decide

theorem witness_PatternsAreMutuallyExclusive :
    ⟨"CALL", 0xF000#16, 0x2000#16⟩ ∈ opcodeMap ∧ (⟨"CALL", 0xF000#16, 0x2000#16⟩ : OpcodeRow).Matches 0x2FFF#16 := by
  decide

theorem witness_DispatchFollowsTheOpcodeMap :
    decodeWord 0x8014#16 = .instr (.add 0 1) ∧
      (⟨"ADD", 0xF00F#16, 0x8004#16⟩ : OpcodeRow) ∈ opcodeMap ∧
      (⟨"ADD", 0xF00F#16, 0x8004#16⟩ : OpcodeRow).Matches 0x8014#16 := by decide

/-- The four class clauses exclude each other by the class; each at the edge of its range. -/
theorem witness_ImplementedWordsByClass :
    (0x0FFF#16).toNat / 4096 = 0x0 ∧ (0x2FFF#16).toNat / 4096 = 0x2 ∧ (0x8FFF#16).toNat / 4096 = 0x8 ∧
      (0x1000#16).toNat / 4096 ≠ 0x0 ∧ (0x1000#16).toNat / 4096 ≠ 0x2 ∧ (0x1000#16).toNat / 4096 ≠ 0x8 := by decide

/-- The last address that can be fetched, and an odd one. -/
theorem witness_FetchCombinesBigEndian :
    (runningAt [] [] 0 [] 0xFFE#16).canFetch ∧ (runningAt [] [] 0 [] 0x101#16).canFetch := by decide

theorem witness_FetchPastTheEndFaults :
    (runningAt [] [] 0 [] 0xFFF#16).status = .running ∧ 4096 ≤ (runningAt [] [] 0 [] 0xFFF#16).pc.toNat + 1 ∧
      (runningAt [] [] 0 [] 0x1000#16).status = .running ∧ 4096 ≤ (runningAt [] [] 0 [] 0x1000#16).pc.toNat + 1 := by decide

/-- An ADD in the last two bytes of memory. -/
def addAtTop : State := runningAt [(0xFFE, 0x80#8), (0xFFF, 0x14#8)] [(0, 1#8), (1, 2#8)] 0 [] 0xFFE#16

theorem witness_StepRunsTheDecodedInstruction :
    addAtTop.status = .running ∧ addAtTop.canFetch ∧ addAtTop.decodedAtPc = .instr (.add 0 1) := by decide

/-- P7's word. -/
def unimplementedAtZero : State := runningAt [(0x000, 0x12#8)] [] 0 [] 0x000#16

theorem witness_UnimplementedWordFaults :
    unimplementedAtZero.status = .running ∧ unimplementedAtZero.canFetch ∧
      unimplementedAtZero.decodedAtPc = .reject (.unimplementedOpcode 0x1200#16) := by decide

theorem witness_StepOfIdleStartsTheRun : State.reset.status = .idle := by decide

theorem witness_EndedRunTakesNoStep :
    State.reset.halt.status = .halted ∧
      (State.reset.raise (.outOfBoundsFetch 0xFFF#16)).status = .faulted (.outOfBoundsFetch 0xFFF#16) := by decide

theorem witness_AddIsModulo256 : (14 : Reg) ≠ Reg.vf ∧ (0 : Reg) ≠ Reg.vf := by decide

/-- `a = 0xFFE`, the stack one short of full and full. -/
theorem witness_CallPushesAndJumps :
    (runningAt [] [] 15 [] 0x1000#16).pc = 0xFFE#16 + 2#16 ∧ (runningAt [] [] 15 [] 0x1000#16).sp.val < 16 ∧
      (runningAt [] [] 16 [] 0x1000#16).pc = 0xFFE#16 + 2#16 ∧ 16 ≤ (runningAt [] [] 16 [] 0x1000#16).sp.val := by decide

/-- The stack full, and one short of full. -/
theorem witness_OverflowExactlyWhenFull :
    (runningAt [] [] 16 [] 0x002#16).status = .running ∧ 16 ≤ (runningAt [] [] 16 [] 0x002#16).sp.val ∧
      (runningAt [] [] 15 [] 0x002#16).status = .running ∧ (runningAt [] [] 15 [] 0x002#16).sp.val < 16 := by decide

/-- The stack full, and the stack empty. -/
theorem witness_RetPopsIntoPc :
    (runningAt [] [] 16 [(15, 0x202#16)] 0x302#16).pc = 0x300#16 + 2#16 ∧
      (runningAt [] [] 16 [(15, 0x202#16)] 0x302#16).sp.val = (15 : Fin 16).val + 1 ∧
      (runningAt [] [] 0 [] 0x302#16).pc = 0x300#16 + 2#16 ∧ (runningAt [] [] 0 [] 0x302#16).sp.val = 0 := by decide

/-- A CALL at 0x000 to a RET in the last two bytes of memory, with one slot left. -/
def callToRetAtTop : State := runningAt [(0x000, 0x2F#8), (0x001, 0xFE#8), (0xFFF, 0xEE#8)] [] 15 [] 0x000#16

theorem witness_CallThenRetComesBack :
    callToRetAtTop.status = .running ∧ callToRetAtTop.sp.val < 16 ∧ callToRetAtTop.canFetch ∧
      callToRetAtTop.decodedAtPc = .instr (.call 0xFFE#12) ∧ (0xFFE#12).toNat + 1 < 4096 ∧
      decodeBytes [callToRetAtTop.readMem (0xFFE#12).toNat, callToRetAtTop.readMem ((0xFFE#12).toNat + 1)] =
        .instr .ret := by decide

theorem witness_SixteenCallsNest :
    (runningAt [] [] 0 [] 0x000#16).status = .running ∧ (runningAt [] [] 0 [] 0x000#16).sp.val = 0 ∧
      (List.replicate 16 0x100#12).length ≤ 16 ∧ 16 < (List.replicate 17 0x100#12).length := by decide

/-- A CALL at 0x000 and its stack. -/
def callAtZero (sp : Fin 17) : State := runningAt [(0x000, 0x20#8)] [] sp [] 0x000#16

/-- A RET at 0x104 and its stack. -/
def retAt0x104 (sp : Fin 17) : State := runningAt [(0x105, 0xEE#8)] [] sp [(0, 0x002#16)] 0x104#16

/-- A running state that steps into each kind of fault. -/
theorem witness_FaultsHaveTheirCause :
    (∃ t, step (runningAt [] [] 0 [] 0xFFF#16) = .next t ∧ t.status = .faulted (.outOfBoundsFetch 0xFFF#16)) ∧
    (∃ t, step unimplementedAtZero = .next t ∧ t.status = .faulted (.unimplementedOpcode 0x000#16 0x1200#16)) ∧
    (∃ t, step (callAtZero 16) = .next t ∧ t.status = .faulted (.stackOverflow 0x000#16 0x2000#16)) ∧
    (∃ t, step (retAt0x104 0) = .next t ∧ t.status = .faulted (.stackUnderflow 0x104#16 0x00EE#16)) :=
  ⟨⟨_, rfl, rfl⟩, ⟨_, rfl, rfl⟩, ⟨_, rfl, rfl⟩, ⟨_, rfl, rfl⟩⟩

/-- Both `pc` clauses: the fetch bound at 0xFFF, and a fault after a fetch in the last two bytes. -/
theorem witness_FaultingStepWritesNothing :
    (∃ t, step (runningAt [] [] 0 [] 0xFFF#16) = .next t ∧ t.status = .faulted (.outOfBoundsFetch 0xFFF#16)) ∧
    (∃ t, step (runningAt [(0xFFF, 0xEE#8)] [] 0 [] 0xFFE#16) = .next t ∧
      t.status = .faulted (.stackUnderflow 0xFFE#16 0x00EE#16)) :=
  ⟨⟨_, rfl, rfl⟩, ⟨_, rfl, rfl⟩⟩

/-- A step that halts and one that does not. -/
theorem witness_OnlyTheZeroWordHalts :
    (∃ t, step (runningAt [] [] 0 [] 0xFFE#16) = .next t ∧ t.status = .halted) ∧
    (∃ t, step addAtTop = .next t ∧ t.status = .running) := ⟨⟨_, rfl, rfl⟩, ⟨_, rfl, rfl⟩⟩

theorem witness_RunsNeverWriteMemory : ∃ t : State, core.run 2 callToRetAtTop = .next t ∧ t.status = .running :=
  ⟨_, rfl, rfl⟩

/-- A step that changes the destination, and one that changes VF. -/
theorem witness_OnlyAddWritesRegisters :
    (∃ t, step addAtTop = .next t ∧ t.readReg 0 ≠ addAtTop.readReg 0) ∧
    (∃ t, step (runningAt [(0xFFE, 0x80#8), (0xFFF, 0x14#8)] [(0, 0xFF#8), (1, 1#8)] 0 [] 0xFFE#16) = .next t ∧
      t.readReg 15 ≠ 0#8) := ⟨⟨_, rfl, by decide⟩, ⟨_, rfl, by decide⟩⟩

theorem witness_OnlyCallAndRetMoveTheStack :
    (∃ t, step (callAtZero 15) = .next t ∧ t.sp ≠ (callAtZero 15).sp ∧ t.readStack 15 ≠ (callAtZero 15).readStack 15) ∧
    (∃ t, step (retAt0x104 1) = .next t ∧ t.sp ≠ (retAt0x104 1).sp) :=
  ⟨⟨_, rfl, by decide, by decide⟩, ⟨_, rfl, by decide⟩⟩

/-- Each instruction, without a fault. -/
theorem witness_PcFollowsTheInstruction :
    (addAtTop.decodedAtPc = .instr (.add 0 1) ∧ ∃ t, step addAtTop = .next t ∧ t.status = .running) ∧
    ((callAtZero 15).decodedAtPc = .instr (.call 0x000#12) ∧ ∃ t, step (callAtZero 15) = .next t ∧ t.status = .running) ∧
    ((retAt0x104 1).decodedAtPc = .instr .ret ∧ ∃ t, step (retAt0x104 1) = .next t ∧ t.status = .running) ∧
    ((runningAt [] [] 0 [] 0xFFE#16).decodedAtPc = .instr .halt ∧
      ∃ t, step (runningAt [] [] 0 [] 0xFFE#16) = .next t ∧ t.status = .halted) :=
  ⟨⟨by decide, _, rfl, rfl⟩, ⟨by decide, _, rfl, rfl⟩, ⟨by decide, _, rfl, rfl⟩, ⟨by decide, _, rfl, rfl⟩⟩

/-- A state with a live stack entry that meets the invariant and takes a step. -/
theorem witness_StepKeepsTheInvariant : (retAt0x104 1).Inv ∧ ∃ t, step (retAt0x104 1) = .next t :=
  ⟨⟨by decide, by decide, by decide⟩, _, rfl⟩

theorem witness_RegistersDoNotSteerTheRun :
    addAtTop.SameButRegs { addAtTop with v := Vector.replicate 16 0xFF#8 } ∧
      addAtTop ≠ { addAtTop with v := Vector.replicate 16 0xFF#8 } := by
  unfold State.SameButRegs; decide

theorem witness_FreeSlotsAreNeverRead :
    (retAt0x104 1).SameButFreeSlots { retAt0x104 1 with stack := (retAt0x104 1).stack.set 1 0x999#16 } ∧
      retAt0x104 1 ≠ { retAt0x104 1 with stack := (retAt0x104 1).stack.set 1 0x999#16 } := by
  unfold State.SameButFreeSlots; decide

/-- The last address, the first one outside, and a machine that is no longer Idle. -/
theorem witness_LoadWritesItsByte :
    State.reset.mem.wf ∧ State.reset.status = .idle ∧ 0xFFF < 4096 ∧ 4096 ≤ 0x1000 ∧
      addAtTop.mem.wf ∧ addAtTop.status ≠ .idle := by decide

theorem witness_PresetWritesItsRegister : State.reset.status = .idle ∧ addAtTop.status ≠ .idle := by decide

theorem witness_StartOnlyFromIdle : State.reset.status = .idle ∧ State.reset.halt.status ≠ .idle := by decide

theorem witness_InspectionAfterTheRun :
    State.reset.halt.status = .halted ∧
      (State.reset.raise (.stackUnderflow 0#16 0xEE#16)).status = .faulted (.stackUnderflow 0#16 0xEE#16) ∧
      (State.reset.status = .idle ∨ State.reset.status = .running) ∧
      (addAtTop.status = .idle ∨ addAtTop.status = .running) := by decide

/-- The first and the last address, an address loaded twice, and a preset of VF. -/
theorem witness_BootStartsAtTheEntryPoint :
    (∀ c ∈ ([(0x000, 0x80#8), (0xFFF, 1#8), (0xFFF, 2#8)] : List (Nat × Byte)), c.1 < 4096) ∧
      answers (boot [(0x000, 0x80#8), (0xFFF, 1#8), (0xFFF, 2#8)] [(15, 7#8)]) fun s =>
        s.readMem 0xFFF = 2#8 && s.readMem 0 = 0x80#8 && s.readReg 15 = 7#8 && s.status = .running := by decide

/-- Untouched memory at its last two bytes, beside a listed one. -/
theorem witness_UntouchedMemoryHalts :
    (runningAt [(0xFFD, 1#8)] [] 0 [] 0xFFE#16).status = .running ∧ (runningAt [(0xFFD, 1#8)] [] 0 [] 0xFFE#16).canFetch ∧
      ∀ c ∈ (runningAt [(0xFFD, 1#8)] [] 0 [] 0xFFE#16).mem,
        c.1 ≠ (runningAt [(0xFFD, 1#8)] [] 0 [] 0xFFE#16).pc.toNat ∧
          c.1 ≠ (runningAt [(0xFFD, 1#8)] [] 0 [] 0xFFE#16).pc.toNat + 1 := by decide

end Sys2Proof.Machine.Tests
end

section
/-! Proofs of the family 30_encoding.md: the opcode map's rows read as numbers (R74), dispatch held to the map, and from
that the rows' mutual exclusion (R75). -/

namespace Sys2Proof

/-- Two words are the same when their four nibbles are (R71). -/
theorem word_eq_iff_nibbles (u w : Word) :
    u = w ↔ (decodeFields u).c = (decodeFields w).c ∧ (decodeFields u).x = (decodeFields w).x ∧
      (decodeFields u).y = (decodeFields w).y ∧ (decodeFields u).d = (decodeFields w).d := by
  constructor
  · rintro rfl
    exact ⟨rfl, rfl, rfl, rfl⟩
  · rintro ⟨hc, hx, hy, hd⟩
    apply BitVec.eq_of_toNat_eq
    rw [word_eq_fields u, word_eq_fields w, hc, hx, hy, hd]

/-- A row is matched nibble by nibble. -/
theorem OpcodeRow.matches_iff_nibbles (r : OpcodeRow) (w : Word) :
    r.Matches w ↔
      (decodeFields w).c &&& (decodeFields r.mask).c = (decodeFields r.pattern).c ∧
      (decodeFields w).x &&& (decodeFields r.mask).x = (decodeFields r.pattern).x ∧
      (decodeFields w).y &&& (decodeFields r.mask).y = (decodeFields r.pattern).y ∧
      (decodeFields w).d &&& (decodeFields r.mask).d = (decodeFields r.pattern).d := by
  rw [OpcodeRow.Matches, word_eq_iff_nibbles]
  simp only [decodeFields, BitVec.extractLsb'_and]

/-- The bits a mask keeps whole: all of a word, all of a nibble. -/
theorem word_and_fullMask (w : Word) : w &&& 0xFFFF#16 = w := BitVec.and_allOnes

theorem nibble_and_fullMask (n : Nibble) : n &&& 0xF#4 = n := BitVec.and_allOnes

theorem matches_halt_row_iff (w : Word) : Instr.halt.row.Matches w ↔ w = 0x0000#16 := by
  simp only [OpcodeRow.Matches, Instr.row, word_and_fullMask]

theorem matches_ret_row_iff (w : Word) : Instr.ret.row.Matches w ↔ w = 0x00EE#16 := by
  simp only [OpcodeRow.Matches, Instr.row, word_and_fullMask]

theorem matches_call_row_iff (nnn : Addr12) (w : Word) : (Instr.call nnn).row.Matches w ↔ w.toNat / 4096 = 0x2 := by
  have hrow : (Instr.call nnn).row.Matches w ↔ (decodeFields w).c = 0x2#4 := by
    simp [OpcodeRow.matches_iff_nibbles, Instr.row, decodeFields, nibble_and_fullMask]
  rw [hrow, BitVec.toNat_eq, decodeFields_c]
  rfl

theorem matches_add_row_iff (x y : Reg) (w : Word) :
    (Instr.add x y).row.Matches w ↔ w.toNat / 4096 = 0x8 ∧ w.toNat % 16 = 0x4 := by
  have hrow : (Instr.add x y).row.Matches w ↔ (decodeFields w).c = 0x8#4 ∧ (decodeFields w).d = 0x4#4 := by
    simp [OpcodeRow.matches_iff_nibbles, Instr.row, decodeFields, nibble_and_fullMask]
  rw [hrow, BitVec.toNat_eq, BitVec.toNat_eq, decodeFields_c, decodeFields_d]
  rfl

/-- Every word whose high nibble is 2 is a CALL (R74). -/
theorem decodeWord_of_call_class {w : Word} (h : w.toNat / 4096 = 0x2) :
    decodeWord w = .instr (.call (decodeFields w).nnn) := by
  by_contra hd
  have hcases := decodeWord_cases w
  simp only [hd, and_false, false_or] at hcases
  omega

/-- Every word whose high nibble is 8 and whose low nibble is 4 is an ADD (R74). -/
theorem decodeWord_of_add_class {w : Word} (hc : w.toNat / 4096 = 0x8) (hd : w.toNat % 16 = 0x4) :
    decodeWord w = .instr (.add (regOf (decodeFields w).x) (regOf (decodeFields w).y)) := by
  by_contra hne
  have hcases := decodeWord_cases w
  simp only [hne, and_false, false_or] at hcases
  omega

/-- A word decodes only to an instruction whose row it matches. -/
theorem matches_row_of_decodeWord {w : Word} {i : Instr} (h : decodeWord w = .instr i) : i.row.Matches w := by
  obtain ⟨hw, hd⟩ | ⟨hw, hd⟩ | ⟨hc, hd⟩ | ⟨hc, hn, hd⟩ | ⟨-, -, -, -, hd⟩ := decodeWord_cases w
  · obtain rfl : i = .halt := Decoded.instr.inj (h.symm.trans hd)
    exact (matches_halt_row_iff w).2 (BitVec.eq_of_toNat_eq hw)
  · obtain rfl : i = .ret := Decoded.instr.inj (h.symm.trans hd)
    exact (matches_ret_row_iff w).2 (BitVec.eq_of_toNat_eq hw)
  · obtain rfl : i = .call _ := Decoded.instr.inj (h.symm.trans hd)
    exact (matches_call_row_iff _ w).2 hc
  · obtain rfl : i = .add _ _ := Decoded.instr.inj (h.symm.trans hd)
    exact (matches_add_row_iff _ _ w).2 ⟨hc, hn⟩
  · exact absurd (h.symm.trans hd) Decoded.noConfusion

/-- A word that matches an instruction's row decodes to an instruction of that row. -/
theorem decodeWord_of_matches_row {w : Word} {i : Instr} (h : i.row.Matches w) :
    ∃ j, decodeWord w = .instr j ∧ j.row = i.row := by
  cases i with
  | halt =>
    obtain rfl := (matches_halt_row_iff w).1 h
    exact ⟨.halt, by decide, rfl⟩
  | ret =>
    obtain rfl := (matches_ret_row_iff w).1 h
    exact ⟨.ret, by decide, rfl⟩
  | call nnn => exact ⟨_, decodeWord_of_call_class ((matches_call_row_iff nnn w).1 h), rfl⟩
  | add x y =>
    obtain ⟨hc, hd⟩ := (matches_add_row_iff x y w).1 h
    exact ⟨_, decodeWord_of_add_class hc hd, rfl⟩

/-- The per-instruction family of RowMatch, for all instructions at once. -/
theorem rowMatch_statement : ∀ i : Instr, Laws.RowMatch.Statement i
  | .halt => Laws.RowMatch.halt
  | .ret => Laws.RowMatch.ret
  | .call nnn => Laws.RowMatch.call nnn
  | .add x y => Laws.RowMatch.add x y

/-- The map has no row but the instructions' own. -/
theorem exists_row_eq_of_mem_opcodeMap {r : OpcodeRow} (h : r ∈ opcodeMap) : ∃ i : Instr, i.row = r := by
  simp only [opcodeMap, List.mem_cons, List.not_mem_nil, or_false] at h
  obtain rfl | rfl | rfl | rfl := h
  · exact ⟨.halt, rfl⟩
  · exact ⟨.ret, rfl⟩
  · exact ⟨.call 0, rfl⟩
  · exact ⟨.add 0 0, rfl⟩

/-- Settles O6: a word's decoding and the row it matches determine each other, class by class. -/
theorem dispatchFollowsTheOpcodeMap : Obligations.DispatchFollowsTheOpcodeMap := by
  intro w
  constructor
  · intro i hi
    obtain ⟨-, hmem, hname⟩ := rowMatch_statement i
    exact ⟨hmem, matches_row_of_decodeWord hi, hname⟩
  · intro r hr hm
    obtain ⟨i, rfl⟩ := exists_row_eq_of_mem_opcodeMap hr
    exact decodeWord_of_matches_row hm

/-- Settles O5: dispatch is a function, so the one instruction it answers for a word has the row of every match. -/
theorem patternsAreMutuallyExclusive : Obligations.PatternsAreMutuallyExclusive := by
  intro w r q hr hq hrw hqw
  obtain ⟨-, hdecode⟩ := dispatchFollowsTheOpcodeMap w
  obtain ⟨i, hi, rfl⟩ := hdecode r hr hrw
  obtain ⟨j, hj, rfl⟩ := hdecode q hq hqw
  obtain rfl : i = j := Decoded.instr.inj (hi.symm.trans hj)
  rfl

end Sys2Proof
end

section
/-! Proofs of the family 40_fetch_decode_dispatch.md: the decoder's fields as numbers (R103) and the word a fetch that
passes the bound check reads (R100). -/

namespace Sys2Proof

/-- The address field is the three low nibbles put together (R71). -/
theorem decodeFields_nnn_eq_nibbles (w : Word) :
    (decodeFields w).nnn.toNat =
      (decodeFields w).x.toNat * 256 + (decodeFields w).y.toNat * 16 + (decodeFields w).d.toNat := by
  rw [decodeFields_nnn, decodeFields_x, decodeFields_y, decodeFields_d]
  omega

/-- Settles O1: each field's number is known, and the address field's is put together from the nibbles'. -/
theorem decoderExtractsTheFields : Obligations.DecoderExtractsTheFields := fun w =>
  ⟨decodeFields_c w, decodeFields_x w, decodeFields_y w, decodeFields_d w, decodeFields_nnn w,
    decodeFields_nnn_eq_nibbles w⟩

end Sys2Proof

namespace Sys2Proof.Machine

/-- A fetch that passes the bound check answers the combination of the two bytes at `pc` (R100, R101). -/
theorem State.fetch_of_canFetch {s : State} (h : s.canFetch) :
    s.fetch = some (concat8 (s.readMem s.pc.toNat) (s.readMem (s.pc.toNat + 1))) := by
  cases hf : s.fetch with
  | none => exact absurd (State.fetch_none.1 hf) (Nat.not_le.2 h)
  | some w => rw [(State.fetch_some hf).2]

/-- Settles O8: the fetch answers the two bytes combined, and the combination has the stated number. -/
theorem fetchCombinesBigEndian : Obligations.FetchCombinesBigEndian := fun _ h =>
  ⟨_, State.fetch_of_canFetch h, concat8_toNat _ _⟩

end Sys2Proof.Machine
end

section
/-! Proofs of the family 41_call_return.md: where CALL jumps to and which address its fault records (R73, R26), its two
ends by the stack's room (R134), and from them R130. -/

namespace Sys2Proof.Machine

/-- CALL's target is its address field, unscaled (R73). -/
theorem callTarget_toNat (nnn : Addr12) : (callTarget nnn).toNat = nnn.toNat :=
  BitVec.toNat_setWidth_of_le (by decide)

/-- A handler entered with `pc = a + 2` takes `a` for its instruction's address (R26). -/
theorem State.handlerAddr_of_pc {s : State} {a : Word} (h : s.pc = a + 2#16) : s.handlerAddr = a := by
  rw [State.handlerAddr, h]
  exact BitVec.add_sub_cancel a 2#16

/-- Equal memories read alike. -/
theorem sameMemory_of_mem_eq {s t : State} (h : t.mem = s.mem) : SameMemory s t := fun a => by
  rw [readMem_def, readMem_def, h]

/-- With a free slot CALL pushes `pc` and jumps (R130). -/
theorem exec_call_of_lt {s : State} (nnn : Addr12) (h : s.sp.val < 16) :
    ∃ t, s.push s.pc = some t ∧ exec (.call nnn) s = .next (t.jump (callTarget nnn)) := by
  obtain hcall | ⟨hfull, -⟩ := exec_call nnn s
  · exact hcall
  · exact absurd h (Nat.not_lt.2 hfull)

/-- With the stack full CALL raises StackOverflow, the push having written nothing (R130, R134). -/
theorem exec_call_of_full {s : State} (nnn : Addr12) (h : 16 ≤ s.sp.val) :
    exec (.call nnn) s = .next (s.raise (.stackOverflow s.handlerAddr (encode (.call nnn)))) := by
  obtain ⟨t, hpush, -⟩ | ⟨-, hfault⟩ := exec_call nnn s
  · exact absurd (hpush.symm.trans (State.push_none.2 h)) (Option.some_ne_none t)
  · exact hfault

/-- Settles O17: with a free slot CALL is the push and the jump, and with the stack full the fault; each leaves what it
does not name. -/
theorem callPushesAndJumps : Obligations.CallPushesAndJumps := by
  intro s nnn a hpc
  constructor
  · intro hfree
    obtain ⟨t, hpush, hexec⟩ := exec_call_of_lt nnn hfree
    obtain ⟨-, hmem, hv, -, hsp, -, hstatus⟩ := State.push_some hpush
    have hstack (i : Fin 16) : t.readStack i = if i.val = s.sp.val then a + 2#16 else s.readStack i :=
      hpc ▸ State.push_readStack hpush i
    exact ⟨t.jump (callTarget nnn), hexec, hstack, hsp, callTarget_toNat nnn, readReg_congr hv,
      sameMemory_of_mem_eq hmem, hstatus⟩
  · intro hfull
    have hexec := exec_call_of_full nnn hfull
    rw [State.handlerAddr_of_pc hpc] at hexec
    exact ⟨_, _, hexec, rfl, encode_call_toNat nnn, fun _ => rfl, rfl, fun _ => rfl, fun _ => rfl⟩

end Sys2Proof.Machine
end

section
/-! Proofs of the family 42_arithmetic.md: the values of the carry flag, and from them ADD's flag law (R152). -/

namespace Sys2Proof.Machine

theorem carryFlag_eq_one_iff (sum : Nat) : carryFlag sum = 1#8 ↔ 256 ≤ sum := by
  by_cases h : 256 ≤ sum <;> simp [carryFlag, h]

theorem carryFlag_eq_zero_iff (sum : Nat) : carryFlag sum = 0#8 ↔ sum < 256 := by
  by_cases h : 256 ≤ sum
  · simp [carryFlag, h]
  · simp [carryFlag, h, Nat.not_le.1 h]

/-- The flag of a sum of nine bits is its bit 8 (R152). -/
theorem carryFlag_toNat {sum : Nat} (hsum : sum < 512) : (carryFlag sum).toNat = sum / 2 ^ 8 % 2 := by
  by_cases h : 256 ≤ sum
  · rw [(carryFlag_eq_one_iff sum).2 h, BitVec.toNat_ofNat]
    omega
  · rw [(carryFlag_eq_zero_iff sum).2 (Nat.not_le.1 h), BitVec.toNat_ofNat]
    omega

/-- The sum of two register operands has nine bits (R150). -/
theorem State.regOperand_add_lt (s : State) (x y : Reg) : s.regOperand x + s.regOperand y < 512 :=
  Nat.add_lt_add (s.readReg x).isLt (s.readReg y).isLt

/-- ADD writes the flag last, so VF keeps it for every `x` (R150, D4). -/
theorem exec_add_readReg_vf (s : State) (x y : Reg) :
    ∃ t, exec (.add x y) s = .next t ∧ t.readReg Reg.vf = carryFlag (s.regOperand x + s.regOperand y) :=
  ⟨_, exec_add x y s, readReg_writeReg_same ..⟩

/-- Settles O15: VF ends holding the flag of a nine-bit sum, whose values are known. -/
theorem addSetsTheCarryFlag : Obligations.AddSetsTheCarryFlag := by
  intro s x y
  obtain ⟨t, hexec, hvf⟩ := exec_add_readReg_vf s x y
  refine ⟨t, hexec, ?_⟩
  rw [hvf]
  exact ⟨carryFlag_eq_one_iff _, carryFlag_eq_zero_iff _, carryFlag_toNat (s.regOperand_add_lt x y)⟩

end Sys2Proof.Machine
end

section
/-! Proofs of the family other: encoding and decoding, the instructions, the eight ways a step ends and the rules of the
whole machine that follow, the invariant and the end of every run, noninterference, and the caller. -/

namespace Sys2Proof

/-! ### Encoding: an instruction's word and the word's decoding determine each other (R72, R74),
and which words are instructions (R76). -/

theorem highByte_toNat (w : Word) : (highByte w).toNat = w.toNat / 256 := by
  have := w.isLt
  simp only [highByte, BitVec.extractLsb'_toNat, Nat.shiftRight_eq_div_pow]
  omega

theorem lowByte_toNat (w : Word) : (lowByte w).toNat = w.toNat % 256 := by
  simp only [lowByte, BitVec.extractLsb'_toNat, Nat.shiftRight_zero, Nat.reducePow]

/-- A word is the combination of its own two bytes (R10, R51). -/
@[simp] theorem concat8_highByte_lowByte (w : Word) : concat8 (highByte w) (lowByte w) = w := by
  apply BitVec.eq_of_toNat_eq
  rw [concat8_toNat, highByte_toNat, lowByte_toNat]
  omega

@[simp] theorem highByte_concat8 (hi lo : Byte) : highByte (concat8 hi lo) = hi := by
  have := lo.isLt
  apply BitVec.eq_of_toNat_eq
  rw [highByte_toNat, concat8_toNat]
  omega

@[simp] theorem lowByte_concat8 (hi lo : Byte) : lowByte (concat8 hi lo) = lo := by
  have := lo.isLt
  apply BitVec.eq_of_toNat_eq
  rw [lowByte_toNat, concat8_toNat]
  omega

theorem decodeBytes_cons_cons (hi lo : Byte) (rest : List Byte) :
    decodeBytes (hi :: lo :: rest) = decodeWord (concat8 hi lo) := rfl

/-- A register field is read as the number it holds (R73). -/
theorem regOf_val (n : Nibble) : (regOf n).val = n.toNat := rfl

/-- The word of any instruction decodes to it. -/
theorem decodeWord_encode (i : Instr) : decodeWord (encode i) = .instr i := by
  cases i with
  | halt => decide
  | ret => decide
  | call nnn =>
    have hw := encode_call_toNat nnn
    have hlt := nnn.isLt
    have hnnn : (decodeFields (encode (.call nnn))).nnn = nnn := by
      apply BitVec.eq_of_toNat_eq
      rw [decodeFields_nnn, hw]
      omega
    rw [decodeWord_of_call_class (by omega), hnnn]
  | add x y =>
    have hw := encode_add_toNat x y
    have hxlt := x.isLt
    have hylt := y.isLt
    have hx : regOf (decodeFields (encode (.add x y))).x = x := by
      rw [Fin.ext_iff, regOf_val, decodeFields_x, hw]
      omega
    have hy : regOf (decodeFields (encode (.add x y))).y = y := by
      rw [Fin.ext_iff, regOf_val, decodeFields_y, hw]
      omega
    rw [decodeWord_of_add_class (by omega) (by omega), hx, hy]

/-- A word decodes only to the instruction whose word it is (R74). -/
theorem encode_of_decodeWord {w : Word} {i : Instr} (h : decodeWord w = .instr i) : encode i = w := by
  apply BitVec.eq_of_toNat_eq
  obtain ⟨hw, hd⟩ | ⟨hw, hd⟩ | ⟨hc, hd⟩ | ⟨hc, hn, hd⟩ | ⟨-, -, -, -, hd⟩ := decodeWord_cases w
  · obtain rfl : i = .halt := Decoded.instr.inj (h.symm.trans hd)
    exact hw.symm
  · obtain rfl : i = .ret := Decoded.instr.inj (h.symm.trans hd)
    exact hw.symm
  · obtain rfl : i = .call _ := Decoded.instr.inj (h.symm.trans hd)
    rw [encode_call_toNat, decodeFields_nnn]
    omega
  · obtain rfl : i = .add _ _ := Decoded.instr.inj (h.symm.trans hd)
    rw [encode_add_toNat, regOf_val, regOf_val, decodeFields_x, decodeFields_y]
    omega
  · exact absurd (h.symm.trans hd) Decoded.noConfusion

/-- The words that are instructions (R74, R76). -/
theorem exists_decodeWord_instr_iff (w : Word) :
    (∃ i, decodeWord w = .instr i) ↔
      w = 0x0000#16 ∨ w = 0x00EE#16 ∨ w.toNat / 4096 = 0x2 ∨ (w.toNat / 4096 = 0x8 ∧ w.toNat % 16 = 0x4) := by
  constructor
  · rintro ⟨i, hi⟩
    have hrow := matches_row_of_decodeWord hi
    cases i with
    | halt => exact .inl ((matches_halt_row_iff w).1 hrow)
    | ret => exact .inr (.inl ((matches_ret_row_iff w).1 hrow))
    | call nnn => exact .inr (.inr (.inl ((matches_call_row_iff nnn w).1 hrow)))
    | add x y => exact .inr (.inr (.inr ((matches_add_row_iff x y w).1 hrow)))
  · rintro (rfl | rfl | hc | ⟨hc, hd⟩)
    · exact ⟨_, decodeWord_encode .halt⟩
    · exact ⟨_, decodeWord_encode .ret⟩
    · exact ⟨_, decodeWord_of_call_class hc⟩
    · exact ⟨_, decodeWord_of_add_class hc hd⟩

/-- A word that is no instruction is rejected with itself (R108). -/
theorem decodeWord_eq_reject {w : Word} (h : ¬ ∃ i, decodeWord w = .instr i) :
    decodeWord w = .reject (.unimplementedOpcode w) := by
  cases hd : decodeWord w with
  | instr i => exact absurd ⟨i, hd⟩ h
  | reject r => rw [decodeWord_reject hd]

/-- Settles O2: each pair of bytes is read by the decoder. -/
theorem wordsOfTheSpecDecode : Obligations.WordsOfTheSpecDecode := by
  unfold Obligations.WordsOfTheSpecDecode
  decide

/-- Settles O3: the two bytes combine to the instruction's word, which decodes to it. -/
theorem encodedInstructionsDecodeBack : Obligations.EncodedInstructionsDecodeBack := by
  intro i rest
  calc decodeBytes (encodeBytes i ++ rest)
      = decodeWord (concat8 (highByte (encode i)) (lowByte (encode i))) := decodeBytes_cons_cons _ _ rest
    _ = decodeWord (encode i) := by rw [concat8_highByte_lowByte]
    _ = .instr i := decodeWord_encode i

/-- Settles O4: the word of the two bytes is the instruction's, and the bytes are that word's. -/
theorem decodedBytesAreTheEncoding : Obligations.DecodedBytesAreTheEncoding := by
  intro hi lo rest i h
  have hword : encode i = concat8 hi lo := encode_of_decodeWord h
  exact ⟨by rw [encodeBytes, hword, highByte_concat8, lowByte_concat8], hword⟩

/-- Settles O7: the words that are instructions, read off class by class. -/
theorem implementedWordsByClass : Obligations.ImplementedWordsByClass := by
  intro w
  have hiff := exists_decodeWord_instr_iff w
  simp only [BitVec.toNat_eq (n := 16), BitVec.toNat_ofNat] at hiff ⊢
  refine ⟨fun h0 => ?_, fun h2 => ?_, fun h8 => ?_, fun h0 h2 h8 => ?_⟩
  · rw [hiff]
    omega
  · exact ⟨_, decodeWord_of_call_class h2, decodeFields_nnn w⟩
  · rw [hiff]
    omega
  · refine decodeWord_eq_reject ?_
    rw [hiff]
    omega

end Sys2Proof

namespace Sys2Proof.Machine

/-! ### One instruction: each handler's next state as an equation, and what it leaves unchanged
(R107, R130, R131, R150). -/

/-- The stack entries after one slot was written. -/
theorem readStack_of_stack_set {s t : State} {j : Nat} {ra : Word} (hj : j < 16) (h : t.stack = s.stack.set j ra hj)
    (i : Fin 16) : t.readStack i = if i.val = j then ra else s.readStack i := by
  simp only [State.readStack, h, Fin.getElem_fin, Vector.getElem_set, eq_comm]

/-- CALL with a free slot, as one equation (R130). -/
theorem exec_call_free {s : State} (nnn : Addr12) (h : s.sp.val < 16) :
    exec (.call nnn) s =
      .next { s with
        stack := s.stack.set s.sp.val s.pc h, sp := ⟨s.sp.val + 1, Nat.succ_lt_succ h⟩, pc := callTarget nnn } := by
  simp only [exec, execCall, State.push_eq s.pc h, State.jump]

/-- RET from a stack that is not empty, as one equation (R131). -/
theorem exec_ret_pop {s : State} (k : Fin 16) (h : s.sp.val = k.val + 1) :
    exec .ret s = .next { s with sp := k.castSucc, pc := s.readStack k } := by
  simp only [exec, execRet, State.pop_eq k h, State.jump]

/-- RET from an empty stack, as one equation (R131). -/
theorem exec_ret_empty {s : State} (h : s.sp.val = 0) :
    exec .ret s = .next (s.raise (.stackUnderflow s.handlerAddr (encode .ret))) := by
  simp only [exec, execRet, State.pop_none.2 h]

/-- A stack pointer is 0 or one above a slot (R29). -/
theorem State.sp_eq_zero_or_succ (s : State) : s.sp.val = 0 ∨ ∃ k : Fin 16, s.sp.val = k.val + 1 := by
  have := s.sp.isLt
  by_cases h : s.sp.val = 0
  · exact .inl h
  · exact .inr ⟨⟨s.sp.val - 1, by omega⟩, by simp only []; omega⟩

/-- ADD leaves its sum modulo 256 in every destination but VF (R151). -/
theorem exec_add_readReg {s : State} {x : Reg} (y : Reg) (hx : x ≠ Reg.vf) :
    ∃ t, exec (.add x y) s = .next t ∧ t.readReg x = BitVec.ofNat 8 (s.regOperand x + s.regOperand y) := by
  refine ⟨_, exec_add x y s, ?_⟩
  rw [readReg_writeReg, if_neg hx, readReg_writeReg_same]

/-- Settles O14: the destination keeps the sum, written as a byte. -/
theorem addIsModulo256 : Obligations.AddIsModulo256 := by
  intro s x y hx
  obtain ⟨t, hexec, hread⟩ := exec_add_readReg (s := s) y hx
  exact ⟨t, hexec, by rw [hread, BitVec.toNat_ofNat]; rfl⟩

/-- Settles O16: ADD is two register writes. -/
theorem addFrame : Obligations.AddFrame := by
  intro s x y
  refine ⟨_, exec_add x y s, fun r hx hvf => ?_, fun _ => rfl, fun _ => rfl, rfl, rfl, rfl⟩
  rw [readReg_writeReg, if_neg hvf, readReg_writeReg, if_neg hx]

/-- Settles O18: by the room on the stack. The call that succeeds keeps the status, and the one that faults writes nothing
else. -/
theorem overflowExactlyWhenFull : Obligations.OverflowExactlyWhenFull := by
  intro s nnn hrun
  by_cases h : s.sp.val < 16
  · exact ⟨_, exec_call_free nnn h, by simp [hrun, h], by simp [hrun, h], fun hfull => absurd h (Nat.not_lt.2 hfull)⟩
  · have hfull : 16 ≤ s.sp.val := Nat.not_lt.1 h
    exact ⟨_, exec_call_of_full nnn hfull, by simp [hfull], by simp [h],
      fun _ => ⟨fun _ => rfl, rfl, fun _ => rfl, fun _ => rfl, rfl⟩⟩

/-- Settles O19: with an entry RET is the pop and the jump, and with none the fault. -/
theorem retPopsIntoPc : Obligations.RetPopsIntoPc := by
  intro s a hpc
  refine ⟨fun i hi => ⟨_, exec_ret_pop i hi, rfl, rfl, fun _ => rfl, fun _ => rfl, fun _ => rfl, rfl⟩, fun h0 => ?_⟩
  have hexec := exec_ret_empty h0
  rw [State.handlerAddr_of_pc hpc] at hexec
  exact ⟨_, hexec, rfl, fun _ => rfl, rfl, fun _ => rfl, fun _ => rfl⟩

/-- Settles O20: HALT writes the status alone. -/
theorem haltLeavesTheRest : Obligations.HaltLeavesTheRest := fun s =>
  ⟨_, exec_halt s, rfl, fun _ => rfl, fun _ => rfl, fun _ => rfl, rfl, rfl⟩

/-! ### One step: everything a step of a running state can do, said once, and the steps that
follow from it (R101, R104, R108, R232). -/

/-- Everything a step of a running state can do: the eight ways one ends, with the word that was fetched. -/
inductive RunStepEnds (s : State) : State → Prop
  /-- The fetch bound fails (R101). -/
  | outOfBounds (hpc : 4096 ≤ s.pc.toNat + 1) : RunStepEnds s (s.raise (.outOfBoundsFetch s.pc))
  /-- The word is no instruction (R108). -/
  | unimplemented {w : Word} (hf : s.fetch = some w) (hd : decodeWord w = .reject (.unimplementedOpcode w)) :
      RunStepEnds s (s.advancePc.raise (.unimplementedOpcode s.pc w))
  /-- HALT (R107). -/
  | halt {w : Word} (hf : s.fetch = some w) (hd : decodeWord w = .instr .halt) : RunStepEnds s s.advancePc.halt
  /-- ADD (R150). -/
  | add {w : Word} {x y : Reg} (hf : s.fetch = some w) (hd : decodeWord w = .instr (.add x y)) :
      RunStepEnds s
        ((s.advancePc.writeReg x (BitVec.ofNat 8 (s.regOperand x + s.regOperand y))).writeReg Reg.vf
          (carryFlag (s.regOperand x + s.regOperand y)))
  /-- CALL with a free slot (R130). -/
  | call {w : Word} {nnn : Addr12} (hf : s.fetch = some w) (hd : decodeWord w = .instr (.call nnn))
      (hfree : s.sp.val < 16) :
      RunStepEnds s { s with
        stack := s.stack.set s.sp.val (s.pc + 2#16) hfree, sp := ⟨s.sp.val + 1, Nat.succ_lt_succ hfree⟩,
        pc := callTarget nnn }
  /-- CALL with the stack full (R130, R134). -/
  | callFull {w : Word} {nnn : Addr12} (hf : s.fetch = some w) (hd : decodeWord w = .instr (.call nnn))
      (hfull : 16 ≤ s.sp.val) : RunStepEnds s (s.advancePc.raise (.stackOverflow s.pc w))
  /-- RET to the entry below `SP` (R131). -/
  | ret {w : Word} {k : Fin 16} (hf : s.fetch = some w) (hd : decodeWord w = .instr .ret)
      (hk : s.sp.val = k.val + 1) : RunStepEnds s { s with sp := k.castSucc, pc := s.readStack k }
  /-- RET with the stack empty (R131). -/
  | retEmpty {w : Word} (hf : s.fetch = some w) (hd : decodeWord w = .instr .ret) (hempty : s.sp.val = 0) :
      RunStepEnds s (s.advancePc.raise (.stackUnderflow s.pc w))

/-- A handler run on the fetched instruction ends in one of the eight ways. -/
theorem RunStepEnds.of_exec {s t : State} {w : Word} {i : Instr} (hf : s.fetch = some w)
    (hd : decodeWord w = .instr i) (h : exec i s.advancePc = .next t) : RunStepEnds s t := by
  have hw : encode i = w := encode_of_decodeWord hd
  cases i with
  | halt =>
    obtain rfl := Host.Outcome.next.inj h
    exact .halt hf hd
  | add x y =>
    obtain rfl := Host.Outcome.next.inj h
    exact .add hf hd
  | call nnn =>
    by_cases hfree : s.sp.val < 16
    · obtain rfl := Host.Outcome.next.inj ((exec_call_free (s := s.advancePc) nnn hfree).symm.trans h)
      exact .call hf hd hfree
    · have hfull : 16 ≤ s.sp.val := Nat.not_lt.1 hfree
      obtain rfl := Host.Outcome.next.inj ((exec_call_of_full (s := s.advancePc) nnn hfull).symm.trans h)
      rw [State.handlerAddr_advancePc, hw]
      exact .callFull hf hd hfull
  | ret =>
    obtain hempty | ⟨k, hk⟩ := s.sp_eq_zero_or_succ
    · obtain rfl := Host.Outcome.next.inj ((exec_ret_empty (s := s.advancePc) hempty).symm.trans h)
      rw [State.handlerAddr_advancePc, hw]
      exact .retEmpty hf hd hempty
    · obtain rfl := Host.Outcome.next.inj ((exec_ret_pop (s := s.advancePc) k hk).symm.trans h)
      exact .ret hf hd hk

/-- A step of the run loop ends in one of the eight ways. -/
theorem RunStepEnds.of_runStep {s t : State} (h : runStep s = .next t) : RunStepEnds s t := by
  obtain ⟨hf, hr⟩ | ⟨w, i, hf, hd, hr⟩ | ⟨w, hf, hd, hr⟩ := runStep_cases s
  · obtain rfl := Host.Outcome.next.inj (hr.symm.trans h)
    exact .outOfBounds (State.fetch_none.1 hf)
  · exact .of_exec hf hd (hr.symm.trans h)
  · obtain rfl := Host.Outcome.next.inj (hr.symm.trans h)
    exact .unimplemented hf hd

/-- A step of a running state ends in one of the eight ways. -/
theorem RunStepEnds.of_step {s t : State} (hrun : s.status = .running) (h : step s = .next t) : RunStepEnds s t :=
  .of_runStep ((step_running hrun).symm.trans h)

/-- What the decoder makes of the bytes at `pc` is what it makes of the fetched word (R100). -/
theorem State.decodedAtPc_of_fetch {s : State} {w : Word} (h : s.fetch = some w) : s.decodedAtPc = decodeWord w := by
  rw [(State.fetch_some h).2]
  rfl

/-- A step of a running state on decoded bytes is the handler on the advanced state (R104). -/
theorem step_eq_exec {s : State} {i : Instr} (hrun : s.status = .running) (hpc : s.canFetch)
    (hd : s.decodedAtPc = .instr i) : step s = exec i s.advancePc := by
  have hdw : decodeWord (concat8 (s.readMem s.pc.toNat) (s.readMem (s.pc.toNat + 1))) = .instr i := hd
  rw [step_running hrun]
  simp only [runStep, State.fetch_of_canFetch hpc, hdw]

/-- A step of a running state on rejected bytes is the fault (R108). -/
theorem step_eq_unimplemented {s : State} {w : Word} (hrun : s.status = .running) (hf : s.fetch = some w)
    (hd : decodeWord w = .reject (.unimplementedOpcode w)) :
    step s = .next (s.advancePc.raise (.unimplementedOpcode s.pc w)) := by
  rw [step_running hrun]
  simp only [runStep, hf, hd]

/-- A step of a running state past the fetch bound is the fault (R101). -/
theorem step_eq_outOfBounds {s : State} (hrun : s.status = .running) (hpc : 4096 ≤ s.pc.toNat + 1) :
    step s = .next (s.raise (.outOfBoundsFetch s.pc)) := by
  rw [step_running hrun]
  simp only [runStep, State.fetch_none.2 hpc]

/-- An address memory does not list reads as unwritten (R38). -/
theorem Memory.read_eq_unwritten_of_forall_ne {m : Memory} {a : Nat} (h : ∀ c ∈ m, c.1 ≠ a) :
    m.read a = Config.unwrittenByte := by
  induction m with
  | nil => rfl
  | cons c m ih =>
    obtain ⟨hne, hm⟩ := List.forall_mem_cons.1 h
    rw [Memory.read_cons, if_neg (Ne.symm hne)]
    exact ih hm

/-- Settles O9: the failed fetch is the fault, which writes the status alone. -/
theorem fetchPastTheEndFaults : Obligations.FetchPastTheEndFaults := fun _ hrun hpc =>
  ⟨_, step_eq_outOfBounds hrun hpc, rfl, fun _ => rfl, fun _ => rfl, fun _ => rfl, rfl, rfl⟩

/-- Settles O10: the run loop hands the handler the advanced state. -/
theorem stepRunsTheDecodedInstruction : Obligations.StepRunsTheDecodedInstruction := fun _ _ hrun hpc hd =>
  ⟨step_eq_exec hrun hpc hd, State.advancePc_toNat (State.fetch_of_canFetch hpc)⟩

/-- Settles O11: the rejected word is the fetched one, and the fault writes the status alone. -/
theorem unimplementedWordFaults : Obligations.UnimplementedWordFaults := by
  intro s w hrun hpc hd
  have hf := State.fetch_of_canFetch hpc
  rw [State.decodedAtPc_of_fetch hf] at hd
  obtain rfl : w = _ := Reject.unimplementedOpcode.inj (decodeWord_reject hd)
  exact ⟨concat8_toNat _ _, _, step_eq_unimplemented hrun hf hd, rfl, fun _ => rfl, fun _ => rfl, fun _ => rfl, rfl⟩

/-- Settles O13: the status alone decides. -/
theorem endedRunTakesNoStep : Obligations.EndedRunTakesNoStep := fun _ =>
  ⟨step_halted, fun _ => step_faulted⟩

/-- Settles O41: both bytes read 0x00, so the word fetched is HALT's. -/
theorem untouchedMemoryHalts : Obligations.UntouchedMemoryHalts := by
  intro s hrun hpc hmem
  have hhi : s.readMem s.pc.toNat = 0x00#8 := Memory.read_eq_unwritten_of_forall_ne fun c hc => (hmem c hc).1
  have hlo : s.readMem (s.pc.toNat + 1) = 0x00#8 := Memory.read_eq_unwritten_of_forall_ne fun c hc => (hmem c hc).2
  have hd : s.decodedAtPc = .instr .halt := by
    rw [State.decodedAtPc, hhi, hlo]
    decide
  exact ⟨_, step_eq_exec hrun hpc hd, rfl, State.advancePc_toNat (State.fetch_of_canFetch hpc), fun _ => rfl,
    fun _ => rfl, fun _ => rfl, rfl⟩

/-! ### Rules of the whole machine: which step faults, halts, writes a register or moves the stack,
each from the eight ways a step ends. -/

/-- An initial property every step keeps holds along the whole run. -/
theorem core_run_keeps {P : State → Prop} (hstep : ∀ s t, P s → step s = .next t → P t) {k : Nat} {s t : State}
    (hs : P s) (h : core.run k s = .next t) : P t := by
  induction k generalizing s with
  | zero => exact Host.Outcome.next.inj h ▸ hs
  | succ k ih =>
    rw [core_run_succ] at h
    cases hu : step s with
    | next u =>
      simp only [hu] at h
      exact ih (hstep s u hs hu) h
    | fault | refused =>
      simp only [hu] at h
      cases h

/-- No step writes memory (R62). -/
theorem RunStepEnds.mem_eq {s t : State} (h : RunStepEnds s t) : t.mem = s.mem := by
  cases h <;> rfl

theorem step_mem_eq {s t : State} (h : step s = .next t) : t.mem = s.mem := by
  obtain ⟨u, ⟨-, rfl⟩ | ⟨-, rfl⟩, hu⟩ := step_next h
  · exact (RunStepEnds.of_runStep hu).mem_eq
  · exact (RunStepEnds.of_runStep hu).mem_eq

/-- A word the decoder rejects matches no row of the opcode map (R74). -/
theorem not_matches_of_decodeWord_reject {w : Word} {why : Reject} (h : decodeWord w = .reject why) :
    ∀ r ∈ opcodeMap, ¬ r.Matches w := by
  intro r hr hm
  obtain ⟨i, rfl⟩ := exists_row_eq_of_mem_opcodeMap hr
  obtain ⟨j, hj, -⟩ := decodeWord_of_matches_row hm
  exact absurd (h.symm.trans hj) Decoded.noConfusion

/-- A step of a running state that ends in a fault writes nothing but the status and, past the fetch, `pc` (R203). -/
theorem RunStepEnds.eq_raise_of_faulted {s t : State} {f : Fault} (h : RunStepEnds s t) (hrun : s.status = .running)
    (hfault : t.status = .faulted f) :
    (4096 ≤ s.pc.toNat + 1 ∧ t = s.raise f) ∨ (s.pc.toNat + 1 < 4096 ∧ t = s.advancePc.raise f) := by
  cases h with
  | outOfBounds hpc =>
    obtain rfl := Status.faulted.inj hfault
    exact .inl ⟨hpc, rfl⟩
  | unimplemented hf | callFull hf | retEmpty hf =>
    obtain rfl := Status.faulted.inj hfault
    exact .inr ⟨(State.fetch_some hf).1, rfl⟩
  | halt => exact absurd hfault Status.noConfusion
  | add | call | ret => exact absurd (hrun.symm.trans hfault) Status.noConfusion

/-- Settles O23: of the eight ways a step ends, each of the four faults is one, with its condition. -/
theorem faultsHaveTheirCause : Obligations.FaultsHaveTheirCause := by
  intro s t f hrun hstep hfault
  cases RunStepEnds.of_step hrun hstep with
  | outOfBounds hpc =>
    obtain rfl := Status.faulted.inj hfault
    exact ⟨rfl, hpc⟩
  | unimplemented hf hd =>
    obtain rfl := Status.faulted.inj hfault
    exact ⟨rfl, hf, not_matches_of_decodeWord_reject hd⟩
  | callFull hf hd hfull =>
    obtain rfl := Status.faulted.inj hfault
    have hclass := (matches_call_row_iff _ _).1 (matches_row_of_decodeWord hd)
    exact ⟨rfl, hf, hclass, Nat.le_antisymm (Nat.le_of_lt_succ s.sp.isLt) hfull⟩
  | retEmpty hf hd hempty =>
    obtain rfl := Status.faulted.inj hfault
    exact ⟨rfl, hf, (encode_of_decodeWord hd).symm, hempty⟩
  | halt => exact absurd hfault Status.noConfusion
  | add | call | ret => exact absurd (hrun.symm.trans hfault) Status.noConfusion

/-- Settles O24: a faulting step raises its fault on the state before or after the advance. -/
theorem faultingStepWritesNothing : Obligations.FaultingStepWritesNothing := by
  intro s t f hrun hstep hfault
  obtain ⟨hpc, rfl⟩ | ⟨hpc, rfl⟩ := (RunStepEnds.of_step hrun hstep).eq_raise_of_faulted hrun hfault
  · exact ⟨fun _ => rfl, fun _ => rfl, fun _ => rfl, rfl, fun _ => rfl, fun h => absurd hpc (Nat.not_le.2 h)⟩
  · exact ⟨fun _ => rfl, fun _ => rfl, fun _ => rfl, rfl, fun h => absurd hpc (Nat.not_lt.2 h),
      fun _ => State.advancePc_toNat (State.fetch_of_canFetch hpc)⟩

/-- Settles O25: HALT alone sets the status to Halted, and its word is 0x0000. -/
theorem onlyTheZeroWordHalts : Obligations.OnlyTheZeroWordHalts := by
  intro s t hrun hstep
  constructor
  · intro hhalt
    cases RunStepEnds.of_step hrun hstep with
    | halt hf hd =>
      have hw : 0x0000#16 = _ := encode_of_decodeWord hd
      exact hw ▸ hf
    | outOfBounds | unimplemented | callFull | retEmpty => exact absurd hhalt Status.noConfusion
    | add | call | ret => exact absurd (hrun.symm.trans hhalt) Status.noConfusion
  · intro hf
    have hd : s.decodedAtPc = .instr .halt := (State.decodedAtPc_of_fetch hf).trans (decodeWord_encode .halt)
    obtain rfl := Host.Outcome.next.inj ((step_eq_exec hrun (State.fetch_some hf).1 hd).symm.trans hstep)
    exact halt_status s.advancePc

/-- Settles O26: no step writes memory, and so no run. -/
theorem runsNeverWriteMemory : Obligations.RunsNeverWriteMemory := fun _ s _ h =>
  sameMemory_of_mem_eq (core_run_keeps (P := (·.mem = s.mem)) (fun _ _ hu hstep => (step_mem_eq hstep).trans hu) rfl h)

/-- Settles O27: of the eight ways a step ends, ADD's alone touches the registers. -/
theorem onlyAddWritesRegisters : Obligations.OnlyAddWritesRegisters := by
  intro s t r hrun hstep hne
  cases RunStepEnds.of_step hrun hstep with
  | @add w x y hf hd =>
    refine ⟨x, y, (State.fetch_some hf).1, (State.decodedAtPc_of_fetch hf).trans hd, ?_⟩
    by_contra hr
    obtain ⟨hx, hvf⟩ := not_or.1 hr
    refine hne ?_
    rw [readReg_writeReg, if_neg hvf, readReg_writeReg, if_neg hx]
    rfl
  | outOfBounds | unimplemented | halt | call | callFull | ret | retEmpty => exact absurd rfl hne

/-- Settles O28: of the eight ways a step ends, CALL's push moves `SP` and writes an entry, and RET's pop moves `SP`. -/
theorem onlyCallAndRetMoveTheStack : Obligations.OnlyCallAndRetMoveTheStack := by
  intro s t hrun hstep
  cases RunStepEnds.of_step hrun hstep with
  | @call w nnn hf hd hfree =>
    have hcall : s.decodedAtPc = .instr (.call nnn) := (State.decodedAtPc_of_fetch hf).trans hd
    refine ⟨fun _ => .inl ⟨nnn, hcall, rfl⟩, fun i hne => ?_⟩
    rw [readStack_of_stack_set hfree rfl] at hne ⊢
    obtain hslot | hslot := eq_or_ne i.val s.sp.val
    · rw [if_pos hslot]
      exact ⟨⟨nnn, hcall⟩, hslot, State.advancePc_toNat hf⟩
    · rw [if_neg hslot] at hne
      exact absurd rfl hne
  | ret hf hd hk =>
    exact ⟨fun _ => .inr ⟨(State.decodedAtPc_of_fetch hf).trans hd, hk⟩, fun _ hne => absurd rfl hne⟩
  | outOfBounds | unimplemented | halt | add | callFull | retEmpty =>
    exact ⟨fun hne => absurd rfl hne, fun _ hne => absurd rfl hne⟩

/-- Settles O29: by the handler's end; its two faults are excluded. -/
theorem pcFollowsTheInstruction : Obligations.PcFollowsTheInstruction := by
  intro s t i hrun hpc hd hstep hnofault
  have hadvance := State.advancePc_toNat (State.fetch_of_canFetch hpc)
  obtain ⟨rfl, rfl⟩ | ⟨x, y, rfl, rfl⟩ | ⟨nnn, u, rfl, -, rfl⟩ | ⟨nnn, rfl, -, rfl⟩ | ⟨ra, u, rfl, hpop, rfl⟩ |
      ⟨rfl, -, rfl⟩ := exec_cases ((step_eq_exec hrun hpc hd).symm.trans hstep)
  · exact hadvance
  · exact hadvance
  · exact callTarget_toNat nnn
  · exact absurd rfl (hnofault _)
  · obtain ⟨k, hk, rfl, -⟩ := State.pop_some hpop
    exact ⟨k, hk, rfl⟩
  · exact absurd rfl (hnofault _)

/-! ### Stack laws: a CALL and its RET (R132), and CALLs in a row (R133). -/

theorem core_run_two {s t u : State} (hst : step s = .next t) (htu : step t = .next u) : core.run 2 s = .next u := by
  simp only [core_run_succ, hst, htu, core_run_zero]

/-- Settles O21: the CALL's next state decodes the RET, whose pop finds the slot just pushed. -/
theorem callThenRetComesBack : Obligations.CallThenRetComesBack := by
  intro s nnn hrun hfree hpc hcall htarget hret
  obtain ⟨u, hpush, hexec⟩ := exec_call_of_lt (s := s.advancePc) nnn hfree
  obtain ⟨-, hmem, hv, -, hsp, -, hstatus⟩ := State.push_some hpush
  have hpushed : ∀ i : Fin 16, u.readStack i = if i.val = s.sp.val then s.pc + 2#16 else s.readStack i :=
    fun i => State.push_readStack hpush i
  have hpc' : (u.jump (callTarget nnn)).pc.toNat = nnn.toNat := callTarget_toNat nnn
  have hmem' : SameMemory s (u.jump (callTarget nnn)) := sameMemory_of_mem_eq hmem
  have hret' : (u.jump (callTarget nnn)).decodedAtPc = .instr .ret := by
    rw [State.decodedAtPc, hmem', hmem', hpc']
    exact hret
  have htop : (u.jump (callTarget nnn)).canFetch := by rwa [State.canFetch, hpc']
  have hfirst : step s = .next (u.jump (callTarget nnn)) := (step_eq_exec hrun hpc hcall).trans hexec
  have hsecond := (step_eq_exec (s := u.jump (callTarget nnn)) (hstatus.trans hrun) htop hret').trans
    (exec_ret_pop (s := (u.jump (callTarget nnn)).advancePc) ⟨s.sp.val, hfree⟩ hsp)
  refine ⟨_, core_run_two hfirst hsecond, ?_, rfl, hstatus.trans hrun, readReg_congr hv, hmem', hpushed⟩
  calc (u.readStack ⟨s.sp.val, hfree⟩).toNat
      = (s.pc + 2#16).toNat := by rw [hpushed, if_pos rfl]
    _ = s.pc.toNat + 2 := State.advancePc_toNat (State.fetch_of_canFetch hpc)

/-- After a fault no further handler runs (R31). -/
theorem execEach_of_faulted {s : State} {f : Fault} (h : s.status = .faulted f) (is : List Instr) :
    execEach is s = .next s := by
  cases is with
  | nil => rfl
  | cons i rest => simp only [execEach, h]

/-- A running state goes on to the next handler's state. -/
theorem execEach_cons {s t : State} {i : Instr} (hrun : s.status = .running) (h : exec i s.advancePc = .next t)
    (rest : List Instr) : execEach (i :: rest) s = execEach rest t := by
  simp only [execEach, hrun, h, andThen]

/-- A CALL in a row with a free slot: one more entry, and the others go on from there. -/
theorem execEach_call_of_free {s : State} (nnn : Addr12) (rest : List Instr) (hrun : s.status = .running)
    (hfree : s.sp.val < 16) :
    ∃ t, execEach (.call nnn :: rest) s = execEach rest t ∧ t.status = .running ∧ t.sp.val = s.sp.val + 1 ∧
      SameRegs s t ∧ SameMemory s t :=
  ⟨_, execEach_cons hrun (exec_call_free (s := s.advancePc) nnn hfree) rest, hrun, rfl, fun _ => rfl, fun _ => rfl⟩

/-- A CALL in a row with the stack full ends the row in StackOverflow. -/
theorem execEach_call_of_full {s : State} (nnn : Addr12) (rest : List Instr) (hrun : s.status = .running)
    (hfull : 16 ≤ s.sp.val) :
    execEach (.call nnn :: rest) s = .next (s.advancePc.raise (.stackOverflow s.pc (encode (.call nnn)))) := by
  have hexec := exec_call_of_full (s := s.advancePc) nnn hfull
  rw [State.handlerAddr_advancePc] at hexec
  rw [execEach_cons hrun hexec, execEach_of_faulted rfl]

/-- As many CALLs as there are free slots succeed (R133). -/
theorem execEach_calls_of_le {s : State} {targets : List Addr12} (hrun : s.status = .running)
    (hroom : s.sp.val + targets.length ≤ 16) :
    ∃ t, execEach (targets.map .call) s = .next t ∧ t.status = .running ∧ t.sp.val = s.sp.val + targets.length ∧
      SameRegs s t ∧ SameMemory s t := by
  induction targets generalizing s with
  | nil => exact ⟨s, rfl, hrun, rfl, fun _ => rfl, fun _ => rfl⟩
  | cons nnn rest ih =>
    rw [List.length_cons] at hroom ⊢
    obtain ⟨u, hu, hurun, husp, huregs, humem⟩ :=
      execEach_call_of_free nnn (rest.map .call) hrun (by omega)
    obtain ⟨t, ht, htrun, htsp, htregs, htmem⟩ := ih hurun (by omega)
    exact ⟨t, hu.trans ht, htrun, by omega, fun r => (htregs r).trans (huregs r), fun a => (htmem a).trans (humem a)⟩

/-- One CALL more than there are free slots overflows (R133). -/
theorem execEach_calls_of_lt {s : State} {targets : List Addr12} (hrun : s.status = .running)
    (hover : 16 < s.sp.val + targets.length) :
    ∃ (t : State) (a w : Word), execEach (targets.map .call) s = .next t ∧ t.status = .faulted (.stackOverflow a w) ∧
      t.sp.val = 16 ∧ SameRegs s t ∧ SameMemory s t := by
  have hsp := s.sp.isLt
  induction targets generalizing s with
  | nil =>
    rw [List.length_nil] at hover
    omega
  | cons nnn rest ih =>
    rw [List.length_cons] at hover
    by_cases hfree : s.sp.val < 16
    · obtain ⟨u, hu, hurun, husp, huregs, humem⟩ := execEach_call_of_free nnn (rest.map .call) hrun hfree
      obtain ⟨t, a, w, ht, hfault, htsp, htregs, htmem⟩ := ih hurun (by omega) u.sp.isLt
      exact ⟨t, a, w, hu.trans ht, hfault, htsp, fun r => (htregs r).trans (huregs r),
        fun b => (htmem b).trans (humem b)⟩
    · exact ⟨_, _, _, execEach_call_of_full nnn (rest.map .call) hrun (by omega), rfl,
        Nat.le_antisymm (Nat.le_of_lt_succ hsp) (Nat.not_lt.1 hfree), fun _ => rfl, fun _ => rfl⟩

/-- Settles O22: an empty stack has sixteen free slots. -/
theorem sixteenCallsNest : Obligations.SixteenCallsNest := by
  intro s targets hrun h0
  constructor
  · intro hle
    obtain ⟨t, ht, htrun, htsp, hrest⟩ := execEach_calls_of_le (s := s) (targets := targets) hrun (by omega)
    exact ⟨t, ht, htrun, by omega, hrest⟩
  · intro hlt
    exact execEach_calls_of_lt hrun (by omega)

/-! ### The invariant and the end of every run (R25, R130, R131, R234). -/

/-- The advance after a successful fetch keeps the invariant (R105). -/
theorem State.Inv.advancePc {s : State} {w : Word} (hs : s.Inv) (hf : s.fetch = some w) : s.advancePc.Inv := by
  obtain ⟨hmem, -, hlive⟩ := hs
  have hpc := (State.fetch_some hf).1
  refine ⟨hmem, ?_, hlive⟩
  rw [State.advancePc_toNat hf]
  omega

/-- Each of the eight ways a step ends keeps the invariant. -/
theorem RunStepEnds.inv {s t : State} (h : RunStepEnds s t) (hs : s.Inv) : t.Inv := by
  have ⟨hmem, hpc, hlive⟩ := hs
  cases h with
  | outOfBounds => exact ⟨hmem, hpc, hlive⟩
  | unimplemented hf | halt hf | add hf | callFull hf | retEmpty hf =>
    exact ⟨hmem, (hs.advancePc hf).pcBound, hlive⟩
  | @call w nnn hf hd hfree =>
    have htarget : (callTarget nnn).toNat ≤ 0x1000 := by
      rw [callTarget_toNat]
      exact Nat.le_of_lt nnn.isLt
    have hreturn : returnAddress (s.pc + 2#16) := by
      have hbound := (State.fetch_some hf).1
      have hadvance : (s.pc + 2#16).toNat = s.pc.toNat + 2 := State.advancePc_toNat hf
      rw [returnAddress, hadvance]
      omega
    refine ⟨hmem, htarget, fun i (hi : i.val < s.sp.val + 1) => ?_⟩
    rw [readStack_of_stack_set hfree rfl]
    split_ifs with hslot
    · exact hreturn
    · exact hlive i (by omega)
  | @ret w k hf hd hk =>
    obtain ⟨-, hentry⟩ := hlive k (by omega)
    exact ⟨hmem, hentry, fun i (hi : i.val < k.val) => hlive i (by omega)⟩

/-- Starting the run keeps the invariant (R35). -/
theorem State.Inv.enterRun {s : State} (hs : s.Inv) : s.enterRun.Inv := by
  obtain ⟨hmem, hpc, hlive⟩ := hs
  exact ⟨hmem, hpc, hlive⟩

/-- Settles O30: a step is one of the eight ends, from the state itself or from the started one. -/
theorem stepKeepsTheInvariant : Obligations.StepKeepsTheInvariant := by
  intro s t hs hstep
  obtain ⟨u, ⟨-, rfl⟩ | ⟨-, rfl⟩, hu⟩ := step_next hstep
  · exact (RunStepEnds.of_runStep hu).inv hs
  · exact (RunStepEnds.of_runStep hu).inv hs.enterRun

/-- Settles O31: memory is empty, `pc` is zero, and no slot is live. -/
theorem resetMeetsTheInvariant : Obligations.ResetMeetsTheInvariant :=
  ⟨Memory.wf_reset, by decide, fun i hi => absurd hi (Nat.not_lt_zero i.val)⟩

/-- What is left of 65536 above each entry of the tuple of R234, `Stack[0]`, ..., `Stack[SP-1]`, `pc`, and 0 past its
end: the tuple grows lexicographically when this falls. -/
def State.room (s : State) (i : Fin 17) : ℕ :=
  if h : i.val < s.sp.val then 65536 - (s.readStack ⟨i.val, by omega⟩).toNat
  else if i = s.sp then 65536 - s.pc.toNat
  else 0

theorem State.room_of_live {s : State} {k : Fin 16} (hk : k.val < s.sp.val) :
    s.room k.castSucc = 65536 - (s.readStack k).toNat := dif_pos hk

theorem State.room_of_top {s : State} {i : Fin 17} (hi : i = s.sp) : s.room i = 65536 - s.pc.toNat := by
  subst hi
  rw [State.room, dif_neg (Nat.lt_irrefl _), if_pos rfl]

theorem State.room_of_free {s : State} {i : Fin 17} (hi : s.sp.val < i.val) : s.room i = 0 := by
  rw [State.room, dif_neg (by omega), if_neg (Fin.ne_of_gt hi)]

/-- A slot live in two states with the same entry leaves the same room. -/
theorem State.room_congr {s t : State} {k : Fin 16} (hs : k.val < s.sp.val) (ht : k.val < t.sp.val)
    (h : t.readStack k = s.readStack k) : t.room k.castSucc = s.room k.castSucc := by
  rw [State.room_of_live hs, State.room_of_live ht, h]

/-- A step that does not end the run keeps the tuple's entries below `SP` and makes the one at `SP` larger (R234). -/
theorem RunStepEnds.ended_or_room_lt {s t : State} (h : RunStepEnds s t) :
    t.Ended ∨
      (∀ j : Fin 16, j.val < s.sp.val → t.room j.castSucc = s.room j.castSucc) ∧ t.room s.sp < s.room s.sp := by
  have hsp : s.room s.sp = 65536 - s.pc.toNat := State.room_of_top rfl
  have hpc := s.pc.isLt
  cases h with
  | outOfBounds | unimplemented | callFull | retEmpty => exact .inl (.inr ⟨_, rfl⟩)
  | halt => exact .inl (.inl rfl)
  | add hf =>
    have hadvance := State.advancePc_toNat hf
    refine .inr ⟨fun j hj => State.room_congr hj hj rfl, ?_⟩
    calc _ = 65536 - s.advancePc.pc.toNat := State.room_of_top rfl
      _ < s.room s.sp := by omega
  | @call w nnn hf hd hfree =>
    have hadvance : (s.pc + 2#16).toNat = s.pc.toNat + 2 := State.advancePc_toNat hf
    refine .inr ⟨fun j hj => State.room_congr hj (Nat.lt_succ_of_lt hj) ?_, ?_⟩
    · rw [readStack_of_stack_set hfree rfl, if_neg (Nat.ne_of_lt hj)]
    · calc _ = 65536 - (State.readStack _ ⟨s.sp.val, hfree⟩).toNat := State.room_of_live (Nat.lt_succ_self s.sp.val)
        _ = 65536 - (s.pc + 2#16).toNat := by rw [readStack_of_stack_set hfree rfl, if_pos rfl]
        _ < s.room s.sp := by omega
  | @ret w k hf hd hk =>
    refine .inr ⟨fun j hj => ?_, ?_⟩
    · obtain hlt | rfl := Nat.lt_or_eq_of_le (by omega : j.val ≤ k.val) |>.imp_right Fin.ext
      · exact State.room_congr hj hlt rfl
      · rw [State.room_of_live hj]
        exact State.room_of_top rfl
    · calc _ = 0 := State.room_of_free (by rw [hk]; exact Nat.lt_succ_self k.val)
        _ < s.room s.sp := by omega

/-- In the lexicographic order a step that does not end the run makes the room smaller. -/
theorem RunStepEnds.ended_or_toLex_room_lt {s t : State} (h : RunStepEnds s t) :
    t.Ended ∨ toLex t.room < toLex s.room :=
  h.ended_or_room_lt.imp_right fun ⟨hbelow, hat⟩ =>
    ⟨s.sp, fun j hj => hbelow ⟨j.val, by omega⟩ hj, hat⟩

/-- A step of a state that has not ended is a step of the run loop from it, started. -/
theorem step_of_not_ended {s : State} (h : ¬ s.Ended) : step s = runStep s.enterRun := by
  cases hs : s.status with
  | idle => exact step_idle hs
  | running =>
    have hself : s.enterRun = s := State.eq_of_fields rfl rfl rfl rfl rfl hs.symm
    rw [hself]
    exact step_running hs
  | halted => exact absurd (.inl hs) h
  | faulted f => exact absurd (.inr ⟨f, hs⟩) h

theorem RunEnds.of_ended {s : State} (h : s.Ended) : RunEnds s := ⟨0, s, core_run_zero s, h⟩

theorem RunEnds.of_step {s t : State} (hstep : step s = .next t) (h : RunEnds t) : RunEnds s := by
  obtain ⟨k, u, hrun, hu⟩ := h
  refine ⟨k + 1, u, ?_, hu⟩
  simp only [core_run_succ, hstep, hrun]

/-- Settles O32: the room falls lexicographically with every step that does not end the run, which cannot go on for
ever. -/
theorem everyRunEnds : Obligations.EveryRunEnds := by
  intro s
  refine (InvImage.wf (fun s : State => toLex s.room) wellFounded_lt).induction s fun s ih => ?_
  by_cases hs : s.Ended
  · exact .of_ended hs
  · obtain ⟨t, ht⟩ := runStep_next s.enterRun
    have hstep : step s = .next t := (step_of_not_ended hs).trans ht
    obtain hended | hlt := (RunStepEnds.of_runStep ht).ended_or_toLex_room_lt
    · exact .of_step hstep (.of_ended hended)
    · exact .of_step hstep (ih t hlt)

/-! ### Noninterference: what a relation of states must keep for two runs to be alike, said once,
and the two relations that keep it (R22, R30). -/

/-- A relation of states that agree on what steers a step, and that the operations a step is made of keep. -/
structure StepCongr (R : State → State → Prop) : Prop where
  mem {s t : State} : R s t → s.mem = t.mem
  sp {s t : State} : R s t → s.sp = t.sp
  pc {s t : State} : R s t → s.pc = t.pc
  status {s t : State} : R s t → s.status = t.status
  jump {s t : State} (w : Word) : R s t → R (s.jump w) (t.jump w)
  setStatus {s t : State} (st : Status) : R s t → R { s with status := st } { t with status := st }
  add {s t : State} (x y : Reg) : R s t → OutcomeRel R (execAdd x y s) (execAdd x y t)
  push {s t s' t' : State} {ra : Word} : R s t → s.push ra = some s' → t.push ra = some t' → R s' t'
  pop {s t s' t' : State} {ra rb : Word} :
    R s t → s.pop = some (ra, s') → t.pop = some (rb, t') → ra = rb ∧ R s' t'

theorem StepCongr.advancePc {R : State → State → Prop} (hR : StepCongr R) {s t : State} (h : R s t) :
    R s.advancePc t.advancePc := by
  have hjump : R s.advancePc (t.jump (s.pc + 2#16)) := hR.jump _ h
  rw [hR.pc h] at hjump
  exact hjump

theorem StepCongr.raise {R : State → State → Prop} (hR : StepCongr R) {s t : State} (f : Fault) (h : R s t) :
    R (s.raise f) (t.raise f) := hR.setStatus (.faulted f) h

/-- Each handler keeps the relation. -/
theorem StepCongr.exec {R : State → State → Prop} (hR : StepCongr R) {s t : State} (i : Instr) (h : R s t) :
    OutcomeRel R (exec i s) (exec i t) := by
  have hsp := hR.sp h
  have haddr : s.handlerAddr = t.handlerAddr := by rw [State.handlerAddr, State.handlerAddr, hR.pc h]
  cases i with
  | halt => exact hR.setStatus .halted h
  | add x y => exact hR.add x y h
  | call nnn =>
    obtain hfree | hfull := Nat.lt_or_ge s.sp.val 16
    · obtain ⟨s', hs', hs⟩ := exec_call_of_lt nnn hfree
      obtain ⟨t', ht', ht⟩ := exec_call_of_lt nnn (hsp ▸ hfree)
      rw [hs, ht]
      exact hR.jump _ (hR.push h hs' (hR.pc h ▸ ht'))
    · rw [exec_call_of_full nnn hfull, exec_call_of_full nnn (hsp ▸ hfull), haddr]
      exact hR.raise _ h
  | ret =>
    obtain hempty | ⟨k, hk⟩ := s.sp_eq_zero_or_succ
    · rw [exec_ret_empty hempty, exec_ret_empty (hsp ▸ hempty), haddr]
      exact hR.raise _ h
    · obtain ⟨hra, hpop⟩ := hR.pop h (State.pop_eq k hk) (State.pop_eq k (hsp ▸ hk))
      rw [exec_ret_pop k hk, exec_ret_pop k (hsp ▸ hk), ← hra]
      exact hR.jump _ hpop

theorem StepCongr.runStep {R : State → State → Prop} (hR : StepCongr R) {s t : State} (h : R s t) :
    OutcomeRel R (runStep s) (runStep t) := by
  have hfetch : s.fetch = t.fetch := State.fetch_congr (hR.mem h) (hR.pc h)
  obtain ⟨hf, hs⟩ | ⟨w, i, hf, hd, hs⟩ | ⟨w, hf, hd, hs⟩ := runStep_cases s
  · have ht : Machine.runStep t = .next (t.raise (.outOfBoundsFetch s.pc)) := by
      simp only [Machine.runStep, ← hfetch, hf, hR.pc h]
    rw [hs, ht]
    exact hR.raise _ h
  · have ht : Machine.runStep t = Machine.exec i t.advancePc := by
      simp only [Machine.runStep, ← hfetch, hf, hd]
    rw [hs, ht]
    exact hR.exec i (hR.advancePc h)
  · have ht : Machine.runStep t = .next (t.advancePc.raise (.unimplementedOpcode s.pc w)) := by
      simp only [Machine.runStep, ← hfetch, hf, hd, hR.pc h]
    rw [hs, ht]
    exact hR.raise _ (hR.advancePc h)

theorem StepCongr.step {R : State → State → Prop} (hR : StepCongr R) {s t : State} (h : R s t) :
    OutcomeRel R (step s) (step t) := by
  have hstatus := hR.status h
  cases hs : s.status with
  | idle =>
    rw [step_idle hs, step_idle (hstatus.symm.trans hs)]
    exact hR.runStep (hR.setStatus .running h)
  | running =>
    rw [step_running hs, step_running (hstatus.symm.trans hs)]
    exact hR.runStep h
  | halted =>
    rw [step_halted hs, step_halted (hstatus.symm.trans hs)]
    rfl
  | faulted f =>
    rw [step_faulted hs, step_faulted (hstatus.symm.trans hs)]
    rfl

/-- Two related states run alike for any number of steps. -/
theorem StepCongr.run {R : State → State → Prop} (hR : StepCongr R) (k : Nat) {s t : State} (h : R s t) :
    OutcomeRel R (core.run k s) (core.run k t) := by
  induction k generalizing s t with
  | zero => exact h
  | succ k ih =>
    have hstep := hR.step h
    rw [core_run_succ, core_run_succ]
    cases hs : Machine.step s <;> cases ht : Machine.step t <;> rw [hs, ht] at hstep
    case next.next s' t' => exact ih hstep
    case fault.fault r q => exact hstep
    case refused.refused r q => exact hstep
    all_goals exact hstep.elim

/-- States that differ in registers alone steer alike. -/
theorem stepCongr_sameButRegs : StepCongr State.SameButRegs where
  mem := fun ⟨hmem, _⟩ => hmem
  sp := fun ⟨_, _, hsp, _⟩ => hsp
  pc := fun ⟨_, _, _, hpc, _⟩ => hpc
  status := fun ⟨_, _, _, _, hstatus⟩ => hstatus
  jump := fun _ ⟨hmem, hstack, hsp, _, hstatus⟩ => ⟨hmem, hstack, hsp, rfl, hstatus⟩
  setStatus := fun _ ⟨hmem, hstack, hsp, hpc, _⟩ => ⟨hmem, hstack, hsp, hpc, rfl⟩
  add := fun _ _ h => h
  push := by
    rintro s t s' t' ra ⟨hmem, hstack, hsp, hpc, hstatus⟩ hs ht
    obtain ⟨-, hsmem, -, -, hssp, hspc, hsstatus⟩ := State.push_some hs
    obtain ⟨-, htmem, -, -, htsp, htpc, htstatus⟩ := State.push_some ht
    refine ⟨by rw [hsmem, htmem, hmem], stack_ext fun i => ?_, Fin.ext (by rw [hssp, htsp, hsp]),
      by rw [hspc, htpc, hpc], by rw [hsstatus, htstatus, hstatus]⟩
    rw [State.push_readStack hs, State.push_readStack ht, hsp, readStack_congr hstack]
  pop := by
    rintro s t s' t' ra rb ⟨hmem, hstack, hsp, hpc, hstatus⟩ hs ht
    obtain ⟨i, hi, rfl, hsmem, -, hsstack, hssp, hspc, hsstatus⟩ := State.pop_some hs
    obtain ⟨j, hj, rfl, htmem, -, htstack, htsp, htpc, htstatus⟩ := State.pop_some ht
    obtain rfl : i = j := Fin.ext (by rw [hsp] at hi; omega)
    exact ⟨readStack_congr hstack i, by rw [hsmem, htmem, hmem], by rw [hsstack, htstack, hstack],
      Fin.ext (hssp.trans htsp.symm), by rw [hspc, htpc, hpc], by rw [hsstatus, htstatus, hstatus]⟩

/-- States that differ in free slots alone steer alike: CALL's push makes live the slot it writes, and RET reads a live
one. -/
theorem stepCongr_sameButFreeSlots : StepCongr State.SameButFreeSlots where
  mem := fun ⟨hmem, _⟩ => hmem
  sp := fun ⟨_, _, hsp, _⟩ => hsp
  pc := fun ⟨_, _, _, hpc, _⟩ => hpc
  status := fun ⟨_, _, _, _, hstatus, _⟩ => hstatus
  jump := fun _ ⟨hmem, hv, hsp, _, hstatus, hlive⟩ => ⟨hmem, hv, hsp, rfl, hstatus, hlive⟩
  setStatus := fun _ ⟨hmem, hv, hsp, hpc, _, hlive⟩ => ⟨hmem, hv, hsp, hpc, rfl, hlive⟩
  add := by
    rintro s t x y ⟨hmem, hv, hsp, hpc, hstatus, hlive⟩
    refine ⟨hmem, ?_, hsp, hpc, hstatus, hlive⟩
    simp only [writeReg_v, State.regOperand, readReg_congr hv, hv]
  push := by
    rintro s t s' t' ra ⟨hmem, hv, hsp, hpc, hstatus, hlive⟩ hs ht
    obtain ⟨-, hsmem, hsv, -, hssp, hspc, hsstatus⟩ := State.push_some hs
    obtain ⟨-, htmem, htv, -, htsp, htpc, htstatus⟩ := State.push_some ht
    refine ⟨by rw [hsmem, htmem, hmem], by rw [hsv, htv, hv], Fin.ext (by rw [hssp, htsp, hsp]),
      by rw [hspc, htpc, hpc], by rw [hsstatus, htstatus, hstatus], fun i hi => ?_⟩
    rw [State.push_readStack hs, State.push_readStack ht, ← hsp]
    split_ifs with hslot
    · rfl
    · exact hlive i (by omega)
  pop := by
    rintro s t s' t' ra rb ⟨hmem, hv, hsp, hpc, hstatus, hlive⟩ hs ht
    obtain ⟨i, hi, rfl, hsmem, hsv, hsstack, hssp, hspc, hsstatus⟩ := State.pop_some hs
    obtain ⟨j, hj, rfl, htmem, htv, htstack, htsp, htpc, htstatus⟩ := State.pop_some ht
    obtain rfl : i = j := Fin.ext (by rw [hsp] at hi; omega)
    refine ⟨hlive i (by omega), by rw [hsmem, htmem, hmem], by rw [hsv, htv, hv], Fin.ext (hssp.trans htsp.symm),
      by rw [hspc, htpc, hpc], by rw [hsstatus, htstatus, hstatus], fun k hk => ?_⟩
    rw [readStack_congr hsstack, readStack_congr htstack]
    exact hlive k (by omega)

/-- Settles O33: agreement on all but the registers is kept by every step. -/
theorem registersDoNotSteerTheRun : Obligations.RegistersDoNotSteerTheRun := fun k _ _ => stepCongr_sameButRegs.run k

/-- Settles O34: agreement on all but the free slots is kept by every step. -/
theorem freeSlotsAreNeverRead : Obligations.FreeSlotsAreNeverRead := fun k _ _ => stepCongr_sameButFreeSlots.run k

/-! ### Construction and the caller (R33 to R38, R231). -/

theorem whileIdle_of_idle {s : State} (h : s.status = .idle) (o : Host.Outcome State Fault Refusal) :
    whileIdle s o = o := by
  simp only [whileIdle, h]

theorem whileIdle_of_ne_idle {s : State} (h : s.status ≠ .idle) (o : Host.Outcome State Fault Refusal) :
    whileIdle s o = .refused .notIdle := by
  cases hs : s.status with
  | idle => exact absurd hs h
  | running | halted | faulted => simp only [whileIdle, hs]

theorem load_eq {s : State} {a : Nat} (u : Byte) (hs : s.status = .idle) (ha : a < 4096) :
    load a u s = .next (s.writeMem a u) := by
  rw [load, whileIdle_of_idle hs, if_pos ha]

theorem preset_eq {s : State} (r : Reg) (u : Byte) (hs : s.status = .idle) :
    preset r u s = .next (s.writeReg r u) := whileIdle_of_idle hs _

theorem start_eq {s : State} (hs : s.status = .idle) : start s = .next s.enterRun := whileIdle_of_idle hs _

/-- Settles O12: the start is the Running state the run loop steps from. -/
theorem stepOfIdleStartsTheRun : Obligations.StepOfIdleStartsTheRun := by
  intro s hs
  obtain ⟨u, hu⟩ := runStep_next s.enterRun
  have hstep : step s = runStep s.enterRun := step_idle hs
  exact ⟨s.enterRun, start_eq hs, rfl, hstep.trans (step_running rfl).symm, u, hstep.trans hu⟩

/-- Settles O35: memory is empty, and the register file and the stack are replicated zeros. -/
theorem constructionZeroesEverything : Obligations.ConstructionZeroesEverything :=
  ⟨fun _ => rfl, fun r => Vector.getElem_replicate r.isLt, fun i => Vector.getElem_replicate i.isLt, rfl, rfl, rfl⟩

/-- Settles O36: an accepted load is one write to memory in its canonical form. -/
theorem loadWritesItsByte : Obligations.LoadWritesItsByte := by
  intro s a u hmem
  refine ⟨fun hs ha => ?_, fun hs ha => ?_, fun hs => whileIdle_of_ne_idle hs _⟩
  · exact ⟨_, load_eq u hs ha, fun b => Memory.read_write hmem.1 a b u, Memory.wf_write hmem ha u, fun _ => rfl,
      fun _ => rfl, rfl, rfl, hs⟩
  · rw [load, whileIdle_of_idle hs, if_neg (Nat.not_lt.2 ha)]

/-- Settles O37: an accepted preset is one register write. -/
theorem presetWritesItsRegister : Obligations.PresetWritesItsRegister := fun s r u =>
  ⟨fun hs => ⟨_, preset_eq r u hs, fun q => readReg_writeReg s u r q, fun _ => rfl, fun _ => rfl, rfl, rfl, hs⟩,
    fun hs => whileIdle_of_ne_idle hs _⟩

/-- Settles O38: an accepted start writes the status alone. -/
theorem startOnlyFromIdle : Obligations.StartOnlyFromIdle := fun _ =>
  ⟨fun hs => ⟨_, start_eq hs, rfl, fun _ => rfl, fun _ => rfl, fun _ => rfl, rfl, rfl⟩,
    fun hs => whileIdle_of_ne_idle hs _⟩

theorem inspect_of_halted {α : Type} {s : State} (h : s.status = .halted) (look : State → α) :
    inspect look s = .next (look s) := by
  simp only [inspect, h]

theorem inspect_of_faulted {α : Type} {s : State} {f : Fault} (h : s.status = .faulted f) (look : State → α) :
    inspect look s = .fault f := by
  simp only [inspect, h]

theorem inspect_of_not_ended {α : Type} {s : State} (h : s.status = .idle ∨ s.status = .running) (look : State → α) :
    inspect look s = .refused .runNotEnded := by
  obtain h | h := h <;> simp only [inspect, h]

/-- Settles O39: the status alone decides what an inspection answers. -/
theorem inspectionAfterTheRun : Obligations.InspectionAfterTheRun := by
  intro s
  refine ⟨fun h => ?_, fun f h => ?_, fun h => ?_⟩
  · exact ⟨fun _ => inspect_of_halted h _, fun _ => inspect_of_halted h _, fun _ => inspect_of_halted h _,
      inspect_of_halted h _, inspect_of_halted h _⟩
  · exact ⟨fun _ => inspect_of_faulted h _, fun _ => inspect_of_faulted h _, fun _ => inspect_of_faulted h _,
      inspect_of_faulted h _, inspect_of_faulted h _⟩
  · exact ⟨fun _ => inspect_of_not_ended h _, fun _ => inspect_of_not_ended h _, fun _ => inspect_of_not_ended h _,
      inspect_of_not_ended h _, inspect_of_not_ended h _⟩

/-- What reads after a list of writes: the value last written to an index, or the old one where none was. -/
def LastWriteWins {ι β : Type} (read read' : ι → β) (writes : List (ι × β)) : Prop :=
  (∀ i, (∀ c ∈ writes, c.1 ≠ i) → read' i = read i) ∧
  (∀ before after i u, writes = before ++ (i, u) :: after → (∀ c ∈ after, c.1 ≠ i) → read' i = u)

theorem LastWriteWins.nil {ι β : Type} (read : ι → β) : LastWriteWins read read [] :=
  ⟨fun _ _ => rfl, fun before after i u h => absurd h.symm (by simp)⟩

/-- One write, and then the others. -/
theorem LastWriteWins.cons {ι β : Type} [DecidableEq ι] {read mid read' : ι → β} {i : ι} {u : β}
    {writes : List (ι × β)} (hmid : ∀ j, mid j = if j = i then u else read j) (h : LastWriteWins mid read' writes) :
    LastWriteWins read read' ((i, u) :: writes) := by
  obtain ⟨huntouched, hlast⟩ := h
  constructor
  · intro j hj
    obtain ⟨hne, hrest⟩ := List.forall_mem_cons.1 hj
    rw [huntouched j hrest, hmid, if_neg (Ne.symm hne)]
  · intro before after j w hsplit hafter
    cases before with
    | nil =>
      obtain ⟨⟨rfl, rfl⟩, rfl⟩ : (i = j ∧ u = w) ∧ writes = after := by simpa using hsplit
      rw [huntouched i hafter, hmid, if_pos rfl]
    | cons b before => exact hlast before after j w (List.cons.inj hsplit).2 hafter

/-- Loads inside memory replace the memory of an Idle state by one in canonical form that reads what was last loaded. -/
theorem loadAll_eq {s : State} {image : List (Nat × Byte)} (hs : s.status = .idle) (hmem : s.mem.wf)
    (himage : ∀ c ∈ image, c.1 < 4096) :
    ∃ m : Memory, loadAll image s = .next { s with mem := m } ∧ m.wf ∧ LastWriteWins s.mem.read m.read image := by
  induction image generalizing s with
  | nil => exact ⟨s.mem, rfl, hmem, .nil _⟩
  | cons c rest ih =>
    obtain ⟨a, u⟩ := c
    obtain ⟨ha, hrest⟩ := List.forall_mem_cons.1 himage
    obtain ⟨m, hload, hm, hread⟩ := ih (s := s.writeMem a u) hs (Memory.wf_write hmem ha u) hrest
    refine ⟨m, ?_, hm, .cons (fun b => Memory.read_write hmem.1 a b u) hread⟩
    simp only [loadAll, load_eq u hs ha, andThen]
    exact hload

/-- Presets replace the register file of an Idle state by one that reads what was last preset. -/
theorem presetAll_eq {s : State} {presets : List (Reg × Byte)} (hs : s.status = .idle) :
    ∃ v : Vector Byte 16, presetAll presets s = .next { s with v := v } ∧
      LastWriteWins s.readReg (State.readReg { s with v := v }) presets := by
  induction presets generalizing s with
  | nil => exact ⟨s.v, rfl, .nil _⟩
  | cons p rest ih =>
    obtain ⟨r, u⟩ := p
    obtain ⟨v, hpreset, hread⟩ := ih (s := s.writeReg r u) hs
    refine ⟨v, ?_, .cons (readReg_writeReg s u r) hread⟩
    simp only [presetAll, preset_eq r u hs, andThen]
    exact hpreset

/-- Settles O40: boot is the state at construction with the loaded memory and the preset registers, started. -/
theorem bootStartsAtTheEntryPoint : Obligations.BootStartsAtTheEntryPoint := by
  intro image presets himage
  obtain ⟨-, hreg0, -⟩ := constructionZeroesEverything
  obtain ⟨m, hload, hm, huntouched, hlast⟩ := loadAll_eq (s := State.reset) rfl Memory.wf_reset himage
  obtain ⟨v, hpreset, hregUntouched, hregLast⟩ :=
    presetAll_eq (s := { State.reset with mem := m }) (presets := presets) rfl
  have hboot : boot image presets = .next { State.reset with mem := m, v := v, status := .running } := by
    simp only [boot, andThen, hload, hpreset]
    exact start_eq rfl
  have hinv : State.Inv { State.reset with mem := m, v := v, status := .running } := by
    obtain ⟨-, hpc, hlive⟩ := resetMeetsTheInvariant
    exact ⟨hm, hpc, hlive⟩
  exact ⟨_, hboot, hinv, rfl, rfl, rfl, huntouched, hlast, fun r hr => (hregUntouched r hr).trans (hreg0 r), hregLast⟩

end Sys2Proof.Machine
end
